-- ==== Sys2Proof/Word.lean ====
section
/-! DEFINITION. The word and the byte of the block (spec 00 R8). -/

namespace Sys2Proof

/-- Every register, length, address, CRC and index value is an unsigned 32-bit integer (R8). -/
abbrev Word := BitVec 32

/-- A byte is an unsigned 8-bit value (R8). -/
abbrev Byte := BitVec 8

end Sys2Proof
end

