-- ==== Sys2Proof/Syntax.lean ====
section
/-! DEFINITION. The commands of the block: one constructor for each row of the opcode table (30 R75). -/

namespace Sys2Proof

/-- The 17 commands. A command word carries no immediates and no register numbers (30 R74), so no
constructor has an argument. -/
inductive Instr where
  | nop
  | softReset
  | crcInit
  | crcByte
  | crcBuf
  | typeFromStr
  | chunkNew
  | chunkParse
  | chunkEmit
  | chunkDataOut
  | contClear
  | contParse
  | contAppend
  | contRemove
  | contFind
  | contGet
  | contEmit
  deriving DecidableEq, Repr

end Sys2Proof
end

