-- ==== Sys2Proof/Config.lean ====
section
/-! DEFINITION. What an implementation fixes (spec 00 R6) and the values the spec leaves free. -/

namespace Sys2Proof

/-- The five capacity parameters of R6. Each is a 32-bit word because the CAP registers read it
(10 R38), so the upper bounds of R6 hold by the type but for MAX_CHUNKS (`Params.valid`). The model
takes them as data: a statement about every state is a statement about every choice of them. -/
structure Params where
  /-- `SRC_SIZE`: bytes in the source buffer. -/
  srcSize : Word
  /-- `DST_SIZE`: bytes in the destination buffer. -/
  dstSize : Word
  /-- `STG_CAP`: largest data length the staging chunk holds. -/
  stgCap : Word
  /-- `MAX_CHUNKS`: largest number of chunks of the container. -/
  maxChunks : Word
  /-- `STORE_CAP`: largest total of data bytes of the container. -/
  storeCap : Word
  deriving DecidableEq, Repr

/-- The recommended, not normative, values of R6. `State.reset` takes these. DESIGN CHOICE, safe for a
statement over all capacities (log 3). -/
def Params.recommended : Params where
  srcSize := 131072
  dstSize := 131072
  stgCap := 65536
  maxChunks := 256
  storeCap := 65536

/-- FREE VALUE (log 1, DESIGN CHOICE, safe): how many turns the host gets between its `n`-th CMD write and the sequencer's
step. "A command takes some finite, unspecified time" (70 R142); 93 row 12 treats it as any value.
It has no body that a proof could use. -/
opaque Config.commandTurns : Nat → Nat

/-- FREE VALUE (log 7, DESIGN CHOICE, safe): the parameter `EXPECTED_IS_STORED` (92 D27, 93 row 4): whether the source's name
`expected` means the CRC stored in the frame. No register or rule of the block depends on it. -/
opaque Config.expectedIsStored : Bool

end Sys2Proof
end

