-- ==== Sys2Proof/WellFormed.lean ====
section
/-! DEFINITION. What is well-formed: a command, a command word (30 R70, R76), a choice of parameters (00 R6). -/

namespace Sys2Proof

/-- A command has no operand fields (30 R74), so there is nothing about it to check. -/
def Instr.wellFormed : Instr → Bool := fun _ => true

/-- The opcodes of R75, in its order. -/
def opcodeValues : List Byte :=
  [0x00, 0x01, 0x10, 0x11, 0x12, 0x20, 0x30, 0x31, 0x32, 0x33,
   0x40, 0x41, 0x42, 0x43, 0x44, 0x45, 0x46]

/-- A word that selects a command (R70, R76): bits 31:8 zero and bits 7:0 an opcode of R75. -/
def wordWellFormed (w : Word) : Bool :=
  w.extractLsb' 8 24 == 0 && opcodeValues.contains (w.extractLsb' 0 8)

/-- The constraints of R6 that the type of the parameters does not give by itself. -/
def Params.valid (p : Params) : Bool :=
  p.srcSize != 0 && p.dstSize != 0 && p.maxChunks != 0xFFFFFFFF

end Sys2Proof
end

