-- ==== Sys2Proof/Decode.lean ====
section
/-! DEFINITION. Decoding and encoding of command words (30 R70, R75, R76). A command word is a 32-bit value
written to CMD and is fetched from no memory (20 R60), so it has no byte order. -/

namespace Sys2Proof

/-- Why a word selects no command (30 R70, R76). -/
inductive IllegalWord where
  /-- Bits 31:8 are not zero. -/
  | reservedBits
  /-- Bits 7:0 are no opcode of R75. -/
  | unknownOpcode
  deriving DecidableEq, Repr

/-- "Every 32-bit word decodes, either to one command or to ILLEGAL" (R70). -/
inductive Decoded where
  | command (i : Instr)
  | illegal (why : IllegalWord)
  deriving DecidableEq, Repr

/-- The field OP, bits 7:0 (R70). -/
def opField (w : Word) : Byte := w.extractLsb' 0 8

/-- The field RSVD, bits 31:8 (R70). -/
def rsvdField (w : Word) : BitVec 24 := w.extractLsb' 8 24

/-- The opcode map of R75, read from opcode to command. -/
def commandOfOpcode (op : Byte) : Option Instr :=
  match op.toNat with
  | 0x00 => some .nop
  | 0x01 => some .softReset
  | 0x10 => some .crcInit
  | 0x11 => some .crcByte
  | 0x12 => some .crcBuf
  | 0x20 => some .typeFromStr
  | 0x30 => some .chunkNew
  | 0x31 => some .chunkParse
  | 0x32 => some .chunkEmit
  | 0x33 => some .chunkDataOut
  | 0x40 => some .contClear
  | 0x41 => some .contParse
  | 0x42 => some .contAppend
  | 0x43 => some .contRemove
  | 0x44 => some .contFind
  | 0x45 => some .contGet
  | 0x46 => some .contEmit
  | _ => none

/-- The decoder of R70, total on every word. -/
def decode (w : Word) : Decoded :=
  if rsvdField w ≠ 0 then .illegal .reservedBits
  else match commandOfOpcode (opField w) with
    | some i => .command i
    | none => .illegal .unknownOpcode

/-- The opcode of a command (R75). -/
def Instr.opcode : Instr → Byte
  | .nop => 0x00
  | .softReset => 0x01
  | .crcInit => 0x10
  | .crcByte => 0x11
  | .crcBuf => 0x12
  | .typeFromStr => 0x20
  | .chunkNew => 0x30
  | .chunkParse => 0x31
  | .chunkEmit => 0x32
  | .chunkDataOut => 0x33
  | .contClear => 0x40
  | .contParse => 0x41
  | .contAppend => 0x42
  | .contRemove => 0x43
  | .contFind => 0x44
  | .contGet => 0x45
  | .contEmit => 0x46

/-- The command word of a command: OP in bits 7:0, zero above (R70). -/
def encode (i : Instr) : Word := i.opcode.setWidth 32

/-- The word as the opcode table numbers its bits: `nbits` of them are given, the rest are zero. -/
def tableWord (nbits w : Nat) : Word := BitVec.ofNat 32 (w % 2 ^ nbits)

/-- What the decoder reads from a row of spec/opcode_table.json. -/
def decodeTableWord (nbits w : Nat) : Option Instr :=
  match decode (tableWord nbits w) with
  | .command i => some i
  | .illegal _ => none

end Sys2Proof
end

