-- ==== Sys2Proof/Machine/State.lean ====
section
/-! DEFINITION. The state of the machine as plain data: the block (10 R20), the host agent that drives it
(00 R17, 30 R80) and the reset input (70 R136); the reasons a step can stop; the state after reset (10 R48). -/

namespace Sys2Proof.Machine

/-- A type tag: four bytes `t[0], t[1], t[2], t[3]` (30 R73). Two are equal iff their bytes are equal
position by position (00 R13). -/
structure Tag where
  b0 : Byte
  b1 : Byte
  b2 : Byte
  b3 : Byte
  deriving DecidableEq, Repr

/-- A chunk record (00 R12). Its length is the length of `data`, derived and not stored (90 C2). -/
structure Chunk where
  type : Tag
  data : List Byte
  crc  : Word
  deriving DecidableEq, Repr

/-- The error codes of 60 R123, the values of ERRCODE. -/
inductive ErrCode where
  | none
  | badSignature
  | truncated
  | checksumMismatch
  | invalidFormat
  /-- Reserved for the host's text decoding, never raised by the block. -/
  | invalidEncoding
  | notFound
  /-- Unreachable (42 R103), never raised. -/
  | internal
  /-- Unreachable (41 R98), never raised. -/
  | invalidArgument
  | illegalCommand
  | bounds
  | capacity
  | stageEmpty
  | indexRange
  deriving DecidableEq, Repr

/-- The 29 mapped registers (10 R23). -/
inductive RegName where
  | id | cmd | status | errcode | argAddr | argLen | dstAddr | type | tflags | index
  | resLen | crcIn | crcState | crcValue | stgType | stgLen | stgCrc | stgDeclLen
  | cntCount | storeUsed | errStored | errComputed | sigHi | sigLo
  | capChunks | capStore | capStg | capSrc | capDst
  deriving DecidableEq, Repr

/-- The three address spaces (20 R49), as disjoint tagged address sets (20 R50). DEDUCED, safe
(log 6). -/
inductive Space where
  | reg | src | dst
  deriving DecidableEq, Repr

/-- The width of a bus access; the spec gives a meaning to 32 bits for REG and 8 bits for SRC and DST
(20 R52, R53), every other pairing is a fault. -/
inductive Width where
  | byte | half | word
  deriving DecidableEq, Repr

/-- One bus access of the host, allowed or not: the five operations of 20 R51 and the accesses that
20 R52 to R54 name as faults. `addr` is a byte offset in REG and a cell index in SRC and DST. -/
inductive Access where
  | read (space : Space) (width : Width) (addr : Nat)
  | write (space : Space) (width : Width) (addr : Nat) (data : Word)
  deriving DecidableEq, Repr

/-- One operation of an encoded host program (30 R78, R80); branch targets are positions in it. -/
inductive HostOp where
  | access (a : Access)
  /-- Go to `target` if `(v & mask) = 0`. -/
  | bz (mask : Word) (target : Nat)
  /-- Go to `target` if `(v & mask) ≠ 0`. -/
  | bnz (mask : Word) (target : Nat)
  | halt
  deriving DecidableEq, Repr

/-- The host agent (00 R17, 30 R78). It is no part of the block. DESIGN CHOICE, safe for
the block (log 4). -/
structure HostAgent where
  /-- The encoded program. -/
  prog : List HostOp
  /-- Position of the next operation. -/
  pos  : Nat
  /-- The script's one value variable. -/
  v    : Word
  /-- The script's output: the bytes its buffer reads returned, in order. -/
  out  : List Byte
  deriving DecidableEq, Repr

/-- A buffer (10 R45): its written cells as (index, byte) pairs, indexes strictly rising. A cell that
is not listed is unwritten and reads as no value. -/
abbrev Memory := List Host.Cell

/-- The machine. The complete architectural state of the block is 10 R20; what this structure does
not store (ID, ERR, STG_VALID, TFLAGS, CRC_VALUE, the STG and CONT views, SIG) is computed by the one
register read of Operands.lean. -/
structure State where
  /-- The capacities (00 R6), read in the CAP registers (10 R38); no step changes them. -/
  params      : Params
  /-- CMD (10 R25). -/
  cmd         : Word
  /-- ARG_ADDR (10 R28). -/
  argAddr     : Word
  /-- ARG_LEN (10 R28). -/
  argLen      : Word
  /-- DST_ADDR (10 R28). -/
  dstAddr     : Word
  /-- TYPE (10 R29). -/
  typeReg     : Word
  /-- INDEX (10 R31). -/
  index       : Word
  /-- RES_LEN (10 R32). -/
  resLen      : Word
  /-- CRC_IN bits 7:0, the only ones stored (10 R33). -/
  crcIn       : Byte
  /-- CRC_STATE (10 R33). -/
  crcState    : Word
  /-- ERRCODE (10 R27). -/
  errcode     : ErrCode
  /-- ERR_STORED (10 R36). -/
  errStored   : Word
  /-- ERR_COMPUTED (10 R36). -/
  errComputed : Word
  /-- STATUS.BUSY, the BUSY bit of LATCH (10 R26, R46). -/
  busy        : Bool
  /-- STATUS.DONE (10 R26). -/
  done        : Bool
  /-- STATUS.FOUND (10 R26). -/
  found       : Bool
  /-- The word of LATCH (10 R46). -/
  latch       : Word
  /-- STG, empty or one record (10 R41). -/
  stg         : Option Chunk
  /-- STG_DECL (10 R42). -/
  stgDecl     : Word
  /-- CONT (10 R43). -/
  cont        : List Chunk
  /-- The source buffer (10 R45). -/
  src         : Memory
  /-- The destination buffer (10 R45). -/
  dst         : Memory
  /-- The host agent (00 R17). -/
  host        : HostAgent
  /-- The level of the reset input at each coming step, low once the list ends (70 R136). DESIGN
  CHOICE, safe (log 5). -/
  resetIn     : List Bool
  /-- Host turns left before the sequencer's step (70 R142, log 1); read only while BUSY = 1. -/
  delay       : Nat
  /-- How many CMD writes there were: the argument of `Config.commandTurns` (log 1). -/
  issued      : Nat
  deriving DecidableEq, Repr

/-- The model faults of 00 R15: the step has no successor. All four are SAFE: the spec gives these runs
no meaning, and they err toward unprovable. -/
inductive Fault where
  /-- Raised by the host's turn: an access other than a STATUS read while BUSY = 1 (70 R139). Safe. -/
  | protocolBusy
  /-- Raised by the host's turn: an access that 20 R52, R53 or R54 forbids. Safe. -/
  | protocolAccess
  /-- Raised by a command whose SRC range holds an unwritten cell, and by a host read of such a cell
  (20 R55). Safe. -/
  | unwrittenSource
  /-- Raised by a host read of an unwritten DST cell (20 R55). Safe. -/
  | unwrittenDest
  deriving DecidableEq, Repr

/-- The refusals. Every command has its meaning, so none is raised. -/
inductive Refusal where
  /-- Raised by an arm of `exec` for a command without a meaning: there is none such. Safe. -/
  | notModelled (mnemonic : String)
  deriving DecidableEq, Repr

/-- The host agent that has no program (log 4). -/
def HostAgent.idle : HostAgent where
  prog := []
  pos := 0
  v := 0
  out := []

/-- The block after a hardware reset (10 R23, R48), for given capacities. The last four fields are not
the block's: no host program, no further reset, no host turns owed (logs 1, 4, 5). -/
def State.resetWith (p : Params) : State where
  params := p
  cmd := 0x00000000
  argAddr := 0x00000000
  argLen := 0x00000000
  dstAddr := 0x00000000
  typeReg := 0x00000000
  index := 0x00000000
  resLen := 0x00000000
  crcIn := 0x00
  crcState := 0xFFFFFFFF
  errcode := .none
  errStored := 0x00000000
  errComputed := 0x00000000
  busy := false
  done := false
  found := false
  latch := 0x00000000
  stg := .none
  stgDecl := 0x00000000
  cont := []
  src := []
  dst := []
  host := .idle
  resetIn := []
  delay := 0
  issued := 0

/-- The machine right after reset, with the recommended capacities (log 3). -/
def State.reset : State := State.resetWith Params.recommended

end Sys2Proof.Machine
end

