-- ==== Sys2Proof/Machine/Bytes.lean ====
section
/-! DEFINITION. Byte order, tag packing and the two stream formats (00 R9, 20 R59, R60; 30 R71, R72, R73). -/

namespace Sys2Proof.Machine

/-- The word of four bytes, the first in bits 31:24 (00 R9). -/
def word32 (b0 b1 b2 b3 : Byte) : Word :=
  b0.setWidth 32 <<< 24 ||| b1.setWidth 32 <<< 16 ||| b2.setWidth 32 <<< 8 ||| b3.setWidth 32

/-- `be32(s)` of R9: the value of the first four bytes of `s`, read big-endian. -/
def be32 (s : List Byte) : Word := word32 (s.getD 0 0) (s.getD 1 0) (s.getD 2 0) (s.getD 3 0)

/-- `be32bytes(v)` of R9. -/
def be32bytes (v : Word) : List Byte :=
  [v.extractLsb' 24 8, v.extractLsb' 16 8, v.extractLsb' 8 8, v.extractLsb' 0 8]

/-- `s[i..j]` of R9. -/
def slice (s : List Byte) (i j : Nat) : List Byte := (s.drop i).take (j - i)

/-- The bytes of a tag in stream order. -/
def Tag.bytes (t : Tag) : List Byte := [t.b0, t.b1, t.b2, t.b3]

/-- The tag of the first four bytes of `s`, taken as they are (41 R91). -/
def Tag.ofBytes (s : List Byte) : Tag := ⟨s.getD 0 0, s.getD 1 0, s.getD 2 0, s.getD 3 0⟩

/-- The tag a register holds: `be32bytes` of its value (10 R29). -/
def Tag.ofWord (w : Word) : Tag := Tag.ofBytes (be32bytes w)

/-- A tag packed in a register (10 R29). -/
def Tag.toWord (t : Tag) : Word := word32 t.b0 t.b1 t.b2 t.b3

/-- The length of a record as a 32-bit value (00 R12). -/
def Chunk.len (k : Chunk) : Word := BitVec.ofNat 32 k.data.length

/-- The frame of a record (30 R71): length, type, data, crc. -/
def frame (k : Chunk) : List Byte :=
  be32bytes k.len ++ k.type.bytes ++ k.data ++ be32bytes k.crc

/-- SIG_HI (10 R37). -/
def sigHi : Word := 0x89504E47

/-- SIG_LO (10 R37). -/
def sigLo : Word := 0x0D0A1A0A

/-- The 8-byte signature (30 R72). -/
def signature : List Byte := [0x89, 0x50, 0x4E, 0x47, 0x0D, 0x0A, 0x1A, 0x0A]

/-- The container stream of a chunk sequence (30 R72): frames follow each other with no padding. -/
def containerStream (ks : List Chunk) : List Byte := signature ++ ks.flatMap frame

end Sys2Proof.Machine
end

