-- ==== Sys2Proof/Machine/Checksum.lean ====
section
/-! DEFINITION. The CRC-32/ISO-HDLC function (40 R81 to R84). -/

namespace Sys2Proof.Machine

/-- The reflected polynomial (R81). DEDUCED, unsafe (log 12). -/
def crcPoly : Word := 0xEDB88320

/-- One of the eight repetitions of `crc_step` (R82). -/
def crcBit (c : Word) : Word := if c.getLsbD 0 then c >>> 1 ^^^ crcPoly else c >>> 1

/-- `crc_step(c, b)` (R82). -/
def crcStep (c : Word) (b : Byte) : Word :=
  crcBit (crcBit (crcBit (crcBit (crcBit (crcBit (crcBit (crcBit (c ^^^ b.setWidth 32))))))))

/-- `fold(crc_step, c, s)` (R83). -/
def crcFold (c : Word) (s : List Byte) : Word := s.foldl crcStep c

/-- `crc32(s)` (R83). -/
def crc32 (s : List Byte) : Word := crcFold 0xFFFFFFFF s ^^^ 0xFFFFFFFF

/-- An entry of the table form: `TBL[i] = crc_step(0, i)` (R84). -/
def crcTable (i : Byte) : Word := crcStep 0 i

/-- The table form of `crc_step` (R84). -/
def crcStepTable (c : Word) (b : Byte) : Word :=
  crcTable ((c ^^^ b.setWidth 32).setWidth 8) ^^^ c >>> 8

/-- The crc a record must carry: over type then data (00 R12). -/
def chunkCrc (t : Tag) (d : List Byte) : Word := crc32 (t.bytes ++ d)

/-- The CRC invariant of a record (00 R12, 10 R44). -/
def Chunk.crcOk (k : Chunk) : Bool := k.crc == chunkCrc k.type k.data

end Sys2Proof.Machine
end

