-- ==== Sys2Proof/Machine/Ops.lean ====
section
/-! DEFINITION. The named operations over the buffers and the state: reading and writing cells, completing a
command, raising an error (60 R125), latching a command (10 R46), the hardware reset (70 R136). -/

namespace Sys2Proof.Machine

/-- The outcome of a step of this machine. -/
abbrev Result := Host.Outcome State Fault Refusal

/-- The canonical form of a buffer: indexes strictly rising. No listed cell reads as an unlisted one,
which holds no value. -/
abbrev Memory.wf (m : Memory) : Prop := m.Pairwise (fun c d => c.1 < d.1)

/-- Every listed cell lies in a buffer of `size` cells (10 R45). -/
abbrev Memory.within (m : Memory) (size : Word) : Prop := ∀ c ∈ m, c.1 < size.toNat

/-- The byte of cell `a`, or none if it is unwritten (20 R55). -/
def Memory.read : Memory → Nat → Option Byte
  | [], _ => none
  | (x, b) :: m, a => if a = x then some b else Memory.read m a

/-- Cell `a` becomes written with `b`. -/
def Memory.write : Memory → Nat → Byte → Memory
  | [], a, b => [(a, b)]
  | (x, c) :: m, a, b =>
    if a < x then (a, b) :: (x, c) :: m
    else if a = x then (a, b) :: m
    else (x, c) :: Memory.write m a b

/-- The bytes of the `n` cells from `a`, or none if one of them is unwritten (20 R56). -/
def Memory.readRange (m : Memory) : Nat → Nat → Option (List Byte)
  | _, 0 => some []
  | a, n + 1 =>
    match m.read a with
    | none => none
    | some b => (Memory.readRange m (a + 1) n).map (b :: ·)

/-- The bytes of `s` written to consecutive cells from `a` (20 R57). -/
def Memory.writeRange (m : Memory) : Nat → List Byte → Memory
  | _, [] => m
  | a, b :: s => Memory.writeRange (m.write a b) (a + 1) s

/-- Data bytes held by a chunk sequence (10 R35). -/
def dataTotal (ks : List Chunk) : Nat := (ks.map (fun k => k.data.length)).sum

/-- What a failing command records besides its code (60 R123): the two CRCs for CHECKSUM_MISMATCH,
nothing for the others. -/
inductive ErrInfo where
  | nothing
  | crcs (stored computed : Word)
  deriving DecidableEq, Repr

/-- An error a command raises: its kind and its `info` (60 R125). -/
structure CmdError where
  code : ErrCode
  info : ErrInfo
  deriving DecidableEq, Repr

/-- The completion of a command with a code (10 R46): ERRCODE written, BUSY cleared, DONE set. -/
def State.complete (s : State) (e : ErrCode) : State :=
  { s with errcode := e, busy := false, done := true }

/-- The diagnostic registers an error names (10 R36). -/
def State.record (s : State) : ErrInfo → State
  | .nothing => s
  | .crcs stored computed => { s with errStored := stored, errComputed := computed }

/-- A command that completes without error, its pending writes being those of `s` (00 R14). -/
def succeed (s : State) : Result := .next (s.complete .none)

/-- `raise E(info)` (60 R125), the one way a command fails: `s` is the state BEFORE the command, so every
pending write is discarded. There is nothing to return from (60 R126). -/
def raise (e : CmdError) (s : State) : Result := .next ((s.record e.info).complete e.code)

/-- An error that records nothing. -/
def CmdError.plain (c : ErrCode) : CmdError := ⟨c, .nothing⟩

/-- The error CHECKSUM_MISMATCH with its two CRCs (10 R36). -/
def CmdError.mismatch (stored computed : Word) : CmdError :=
  ⟨.checksumMismatch, .crcs stored computed⟩

/-- STG loaded with a record and STG_DECL with `decl` (10 R41, R42). -/
def State.loadStg (s : State) (k : Chunk) (decl : Word) : State :=
  { s with stg := some k, stgDecl := decl }

/-- A CMD write of `w` while BUSY = 0 (10 R25, R46). How many host turns pass before the sequencer's step
is the free value `Config.commandTurns` (log 1). -/
def State.writeCmd (s : State) (w : Word) : State :=
  { s with
    cmd := w
    latch := w
    busy := true
    done := false
    delay := Config.commandTurns s.issued
    issued := s.issued + 1 }

/-- The state in which the sequencer's step for the word `w` is the next one: `w` is latched as by a CMD
write, and no host turn and no reset stand before it. -/
def State.latchNow (s : State) (w : Word) : State :=
  { s with cmd := w, latch := w, busy := true, done := false, delay := 0, resetIn := [] }

/-- The hardware reset (70 R136): every component of the block takes its reset value. The capacities are
fixed for the block; the host, the levels still to come and the count of CMD writes are not the
block's. -/
def State.hardReset (s : State) : State :=
  { State.resetWith s.params with host := s.host, resetIn := s.resetIn, issued := s.issued }

end Sys2Proof.Machine
end

