-- ==== Sys2Proof/Machine/Flags.lean ====
section
/-! DEFINITION. The flags: the STATUS bits (10 R26), the numbers of the error codes (60 R123), the type flags of
TFLAGS (10 R30; 41 R92 to R98). -/

namespace Sys2Proof.Machine

/-- The code of an error kind, ERRCODE[7:0] (60 R123). -/
def ErrCode.code : ErrCode → Byte
  | .none => 0x00
  | .badSignature => 0x01
  | .truncated => 0x02
  | .checksumMismatch => 0x03
  | .invalidFormat => 0x04
  | .invalidEncoding => 0x05
  | .notFound => 0x06
  | .internal => 0x07
  | .invalidArgument => 0x08
  | .illegalCommand => 0x09
  | .bounds => 0x0A
  | .capacity => 0x0B
  | .stageEmpty => 0x0C
  | .indexRange => 0x0D

/-- A truth value placed at bit `i` of a word (41 R98: true = 1, false = 0). -/
def flagBit (b : Bool) (i : Nat) : Word := (BitVec.ofBool b).setWidth 32 <<< i

/-- STATUS.ERR: `ERRCODE ≠ 0` (10 R26). -/
def State.errFlag (s : State) : Bool := s.errcode.code != 0

/-- STATUS.STG_VALID: STG holds a record (10 R26). -/
def State.stgValid (s : State) : Bool := s.stg.isSome

/-- STATUS (10 R26). -/
def statusWord (s : State) : Word :=
  flagBit s.busy 0 ||| flagBit s.done 1 ||| flagBit s.errFlag 2 ||| flagBit s.found 3
    ||| flagBit s.stgValid 4

/-- `alpha(b)` (41 R92). -/
def alpha (b : Byte) : Bool := (0x41 ≤ b && b ≤ 0x5A) || (0x61 ≤ b && b ≤ 0x7A)

/-- `alpha4(t)` (41 R98). -/
def Tag.alpha4 (t : Tag) : Bool := alpha t.b0 && alpha t.b1 && alpha t.b2 && alpha t.b3

/-- `is_critical(t)` (41 R93). -/
def Tag.isCritical (t : Tag) : Bool := t.b0 &&& 0x20 == 0

/-- `is_public(t)` (41 R94). -/
def Tag.isPublic (t : Tag) : Bool := t.b1 &&& 0x20 == 0

/-- `is_reserved_bit_valid(t)` (41 R95). -/
def Tag.isReservedBitValid (t : Tag) : Bool := t.b2 &&& 0x20 == 0

/-- `is_safe_to_copy(t)`, the one flag that is true when bit 5 is set (41 R96). -/
def Tag.isSafeToCopy (t : Tag) : Bool := t.b3 &&& 0x20 != 0

/-- `is_valid(t)` (41 R97). -/
def Tag.isValid (t : Tag) : Bool := t.alpha4 && t.isReservedBitValid

/-- `tflags(t)` (41 R98). -/
def tflags (t : Tag) : Word :=
  flagBit t.alpha4 0 ||| flagBit t.isValid 1 ||| flagBit t.isCritical 2 ||| flagBit t.isPublic 3
    ||| flagBit t.isReservedBitValid 4 ||| flagBit t.isSafeToCopy 5

end Sys2Proof.Machine
end

