-- ==== Sys2Proof/Machine/Operands.lean ====
section
/-! DEFINITION. Every way an operand is reached: the register map (10 R23), a command's SRC range (20 R56) and
DST range (20 R57). -/

namespace Sys2Proof.Machine

/-- The byte offset of a register (10 R23). -/
def RegName.offset : RegName → Nat
  | .id => 0x00
  | .cmd => 0x04
  | .status => 0x08
  | .errcode => 0x0C
  | .argAddr => 0x10
  | .argLen => 0x14
  | .dstAddr => 0x18
  | .type => 0x1C
  | .tflags => 0x20
  | .index => 0x24
  | .resLen => 0x28
  | .crcIn => 0x2C
  | .crcState => 0x30
  | .crcValue => 0x34
  | .stgType => 0x38
  | .stgLen => 0x3C
  | .stgCrc => 0x40
  | .stgDeclLen => 0x44
  | .cntCount => 0x48
  | .storeUsed => 0x4C
  | .errStored => 0x50
  | .errComputed => 0x54
  | .sigHi => 0x58
  | .sigLo => 0x5C
  | .capChunks => 0x60
  | .capStore => 0x64
  | .capStg => 0x68
  | .capSrc => 0x6C
  | .capDst => 0x70

/-- The 29 registers in the order of R23. -/
def RegName.all : List RegName :=
  [.id, .cmd, .status, .errcode, .argAddr, .argLen, .dstAddr, .type, .tflags, .index,
   .resLen, .crcIn, .crcState, .crcValue, .stgType, .stgLen, .stgCrc, .stgDeclLen,
   .cntCount, .storeUsed, .errStored, .errComputed, .sigHi, .sigLo,
   .capChunks, .capStore, .capStg, .capSrc, .capDst]

/-- The register at a byte offset; none for a reserved or misaligned offset (10 R39, 20 R52). -/
def RegName.atOffset (off : Nat) : Option RegName := RegName.all.find? (fun r => r.offset == off)

/-- The RW registers (10 R23); the others are RO. -/
def RegName.writable : RegName → Bool
  | .cmd | .argAddr | .argLen | .dstAddr | .type | .index | .crcIn => true
  | _ => false

/-- The value a register reads (10 R24 to R38). No read has a side effect (20 R52). -/
def regRead (s : State) : RegName → Word
  | .id => 0x504E4743
  | .cmd => s.cmd
  | .status => statusWord s
  | .errcode => s.errcode.code.setWidth 32
  | .argAddr => s.argAddr
  | .argLen => s.argLen
  | .dstAddr => s.dstAddr
  | .type => s.typeReg
  | .tflags => tflags (Tag.ofWord s.typeReg)
  | .index => s.index
  | .resLen => s.resLen
  | .crcIn => s.crcIn.setWidth 32
  | .crcState => s.crcState
  | .crcValue => s.crcState ^^^ 0xFFFFFFFF
  | .stgType => match s.stg with | some k => k.type.toWord | none => 0
  | .stgLen => match s.stg with | some k => k.len | none => 0
  | .stgCrc => match s.stg with | some k => k.crc | none => 0
  | .stgDeclLen => s.stgDecl
  | .cntCount => BitVec.ofNat 32 s.cont.length
  | .storeUsed => BitVec.ofNat 32 (dataTotal s.cont)
  | .errStored => s.errStored
  | .errComputed => s.errComputed
  | .sigHi => sigHi
  | .sigLo => sigLo
  | .capChunks => s.params.maxChunks
  | .capStore => s.params.storeCap
  | .capStg => s.params.stgCap
  | .capSrc => s.params.srcSize
  | .capDst => s.params.dstSize

/-- A host write to a register (10 R23); none for an RO register (20 R52). CRC_IN stores bits 7:0 only
(10 R33); a CMD write latches a command (10 R46). -/
def regWrite (s : State) (r : RegName) (w : Word) : Option State :=
  match r with
  | .cmd => some (s.writeCmd w)
  | .argAddr => some { s with argAddr := w }
  | .argLen => some { s with argLen := w }
  | .dstAddr => some { s with dstAddr := w }
  | .type => some { s with typeReg := w }
  | .index => some { s with index := w }
  | .crcIn => some { s with crcIn := w.setWidth 8 }
  | _ => none

/-- What `SrcRead` answers (20 R56). -/
inductive SrcResult where
  | bounds
  | unwritten
  | bytes (s : List Byte)
  deriving DecidableEq, Repr

/-- `SrcRead(a, n)` (20 R56), its checks in the order of the rule, its sum unbounded (00 R10). -/
def srcRead (s : State) (a n : Nat) : SrcResult :=
  if a + n > s.params.srcSize.toNat then .bounds
  else match s.src.readRange a n with
    | none => .unwritten
    | some bs => .bytes bs

/-- The SRC range of a command, `SrcRead(ARG_ADDR, ARG_LEN)`, given to the rest `k` of the command. -/
def withSource (s : State) (k : List Byte → Result) : Result :=
  match srcRead s s.argAddr.toNat s.argLen.toNat with
  | .bounds => raise (.plain .bounds) s
  | .unwritten => .fault .unwrittenSource
  | .bytes bs => k bs

/-- `DstWrite(DST_ADDR, out)` followed by the RES_LEN write of the DST-writing commands (20 R57,
10 R32). The sum is unbounded (00 R10). -/
def emitBytes (s : State) (out : List Byte) : Result :=
  if s.dstAddr.toNat + out.length > s.params.dstSize.toNat then raise (.plain .bounds) s
  else succeed { s with
    dst := s.dst.writeRange s.dstAddr.toNat out
    resLen := BitVec.ofNat 32 out.length }

/-- The record of STG given to the rest `k` of the command; STAGE_EMPTY if there is none (60 R123). -/
def withStage (s : State) (k : Chunk → Result) : Result :=
  match s.stg with
  | none => raise (.plain .stageEmpty) s
  | some c => k c

end Sys2Proof.Machine
end

