-- ==== Sys2Proof/Machine/Bus.lean ====
section
/-! DEFINITION. The host's turn: its bus accesses (20 R51 to R55), the BUSY protocol (70 R139), the operations of
its program (30 R78). -/

namespace Sys2Proof.Machine

/-- What a bus access returns to the host (20 R51). -/
inductive BusReply where
  | nothing
  | word (w : Word)
  | byte (b : Byte)
  deriving DecidableEq, Repr

/-- `RegRead(off)`. -/
def Access.regRead (off : Nat) : Access := .read .reg .word off

/-- `RegWrite(off, w)`. -/
def Access.regWrite (off : Nat) (w : Word) : Access := .write .reg .word off w

/-- `SrcPut(i, b)`. -/
def Access.srcPut (i : Nat) (b : Byte) : Access := .write .src .byte i (b.setWidth 32)

/-- `SrcGet(i)`. -/
def Access.srcGet (i : Nat) : Access := .read .src .byte i

/-- `DstGet(i)`. -/
def Access.dstGet (i : Nat) : Access := .read .dst .byte i

/-- The read of the STATUS register, the one access allowed while BUSY = 1 (70 R139). -/
def Access.readStatus : Access := .regRead RegName.status.offset

/-- An access to REG with a width the spec gives no meaning to is a fault, and so is one at an offset that
names no register (20 R52, 10 R39). -/
def regAccess (w : Width) (off : Nat) : Except Fault RegName :=
  match w, RegName.atOffset off with
  | .word, some r => .ok r
  | _, _ => .error .protocolAccess

/-- An access to a buffer must be a byte access at an index in the buffer (20 R53). -/
def cellAccess (w : Width) (i : Nat) (size : Word) : Except Fault Nat :=
  if w = .byte ∧ i < size.toNat then .ok i else .error .protocolAccess

/-- A bus access while BUSY = 0: the state after it and its reply (20 R51), or a model fault (R52 to R55). -/
def busAccess (s : State) : Access → Except Fault (State × BusReply)
  | .read .reg w off =>
    match regAccess w off with
    | .error f => .error f
    | .ok r => .ok (s, .word (regRead s r))
  | .write .reg w off data =>
    match regAccess w off with
    | .error f => .error f
    | .ok r =>
      match regWrite s r data with
      | none => .error .protocolAccess
      | some s' => .ok (s', .nothing)
  | .read .src w i =>
    match cellAccess w i s.params.srcSize with
    | .error f => .error f
    | .ok a =>
      match s.src.read a with
      | none => .error .unwrittenSource
      | some b => .ok (s, .byte b)
  | .write .src w i data =>
    match cellAccess w i s.params.srcSize with
    | .error f => .error f
    | .ok a => .ok ({ s with src := s.src.write a (data.setWidth 8) }, .nothing)
  | .read .dst w i =>
    match cellAccess w i s.params.dstSize with
    | .error f => .error f
    | .ok a =>
      match s.dst.read a with
      | none => .error .unwrittenDest
      | some b => .ok (s, .byte b)
  | .write .dst _ _ _ => .error .protocolAccess

/-- A bus access under the BUSY protocol (70 R139): while BUSY = 1 only a STATUS read has a meaning. Two faults of
00 R15 name an access made while BUSY = 1 that is ProtocolAccess by 10 R39, 20 R52, R53 or R54 as well, and a read of an
unwritten cell then, which is UnwrittenSource or UnwrittenDest by 20 R55; the spec does not order them: the model
reports ProtocolBusy. DESIGN CHOICE, safe (log 15): the run has no successor either way. -/
def guardedAccess (s : State) (a : Access) : Except Fault (State × BusReply) :=
  if s.busy ∧ a ≠ .readStatus then .error .protocolBusy else busAccess s a

/-- The host agent after its operation at `pos`: the next position, and the reply taken in (30 R78). A register
read goes to `v`, a byte read to the output (log 4). -/
def HostAgent.receive (h : HostAgent) : BusReply → HostAgent
  | .nothing => { h with pos := h.pos + 1 }
  | .word w => { h with pos := h.pos + 1, v := w }
  | .byte b => { h with pos := h.pos + 1, out := h.out ++ [b] }

/-- The host goes to position `n` of its program. -/
def State.hostGoto (s : State) (n : Nat) : State := { s with host := { s.host with pos := n } }

/-- The host has performed its last operation: it is at `HALT` or past the last line (30 R80). -/
def HostAgent.ended (h : HostAgent) : Bool :=
  match h.prog[h.pos]? with
  | none => true
  | some .halt => true
  | some _ => false

/-- One turn of the host: the operation at its position, or nothing once its program has ended: a next
state then, DESIGN CHOICE, safe (log 8). -/
def hostTurn (s : State) : Result :=
  match s.host.prog[s.host.pos]? with
  | none => .next s
  | some .halt => .next s
  | some (.bz mask target) =>
    .next (s.hostGoto (if s.host.v &&& mask = 0 then target else s.host.pos + 1))
  | some (.bnz mask target) =>
    .next (s.hostGoto (if s.host.v &&& mask = 0 then s.host.pos + 1 else target))
  | some (.access a) =>
    match guardedAccess s a with
    | .error f => .fault f
    | .ok (s', reply) => .next { s' with host := s'.host.receive reply }

/-- The two registers under the names of the source's `ChecksumMismatch(expected, actual)`: a rendering of the
host's, no part of the block (92 D27, log 7). -/
def checksumExpected (s : State) : Word :=
  if Config.expectedIsStored then s.errStored else s.errComputed

/-- The other of the two. -/
def checksumActual (s : State) : Word :=
  if Config.expectedIsStored then s.errComputed else s.errStored

end Sys2Proof.Machine
end

