-- ==== Sys2Proof/Machine/ChunkType.lean ====
section
/-! DEFINITION. The command on type tags (41_chunk_type.md). -/

namespace Sys2Proof.Machine

/-- TYPE_FROM_STR (R99): the reserved bit is not checked. TFLAGS follows TYPE (10 R30). -/
def execTypeFromStr (s : State) : Result :=
  withSource s fun bs =>
    if bs.length ≠ 4 then raise (.plain .invalidFormat) s
    else if !(Tag.ofBytes bs).alpha4 then raise (.plain .invalidFormat) s
    else succeed { s with typeReg := be32 bs }

end Sys2Proof.Machine
end

