-- ==== Sys2Proof/Machine/Framing.lean ====
section
/-! DEFINITION. The commands on one chunk (42_chunk.md). -/

namespace Sys2Proof.Machine

/-- The record of a frame's type and data once its stored CRC is found right (42 R101, 43 R109). -/
def checkedChunk (t : Tag) (d : List Byte) (stored : Word) : Except CmdError Chunk :=
  if stored ≠ chunkCrc t d then .error (.mismatch stored (chunkCrc t d))
  else .ok ⟨t, d, chunkCrc t d⟩

/-- The permissive parse of a slice `f` (R101): the data boundary comes from the length of the slice and
the declared length is never checked. The trailing region always has 4 bytes (R103). -/
def parseFrame (p : Params) (f : List Byte) : Except CmdError Chunk :=
  if f.length < 12 then .error (.plain .truncated)
  else if f.length - 12 > p.stgCap.toNat then .error (.plain .capacity)
  else checkedChunk (Tag.ofBytes (slice f 4 8)) (slice f 8 (f.length - 4))
    (be32 (slice f (f.length - 4) f.length))

/-- CHUNK_NEW (R100). -/
def execChunkNew (s : State) : Result :=
  withSource s fun d =>
    if s.argLen.toNat > s.params.stgCap.toNat then raise (.plain .capacity) s
    else
      let t := Tag.ofWord s.typeReg
      succeed (s.loadStg ⟨t, d, chunkCrc t d⟩ s.argLen)

/-- CHUNK_PARSE (R101). STG_DECL takes the declared length, informational only (R102). -/
def execChunkParse (s : State) : Result :=
  withSource s fun f =>
    match parseFrame s.params f with
    | .error e => raise e s
    | .ok k => succeed (s.loadStg k (be32 f))

/-- CHUNK_EMIT (R104). -/
def execChunkEmit (s : State) : Result :=
  withStage s fun k => emitBytes s (frame k)

/-- CHUNK_DATA_OUT (R105). -/
def execChunkDataOut (s : State) : Result :=
  withStage s fun k => emitBytes s k.data

end Sys2Proof.Machine
end

