-- ==== Sys2Proof/Machine/Container.lean ====
section
/-! DEFINITION. The container commands (43_container.md). -/

namespace Sys2Proof.Machine

/-- A record matches TYPE iff its four bytes are those of TYPE (R107). -/
def Chunk.hasType (k : Chunk) (w : Word) : Bool := k.type == Tag.ofWord w

/-- `first(TYPE)` (R108): the least index whose record matches. -/
def firstOf (ks : List Chunk) (w : Word) : Option Nat := ks.findIdx? (fun k => k.hasType w)

/-- The loop of `walk` (R109) over the bytes that remain: `acc` and `used` are its `L` and `used`. The
first argument bounds the number of frames; each takes at least 12 bytes, so it is never used up
before the bytes are (Laws/Walk.lean). Sums are unbounded (00 R10). -/
def walkLoop (p : Params) : Nat → List Byte → List Chunk → Nat → Except CmdError (List Chunk)
  | _, [], acc, _ => .ok acc
  | 0, _ :: _, _, _ => .error (.plain .truncated)
  | n + 1, rest@(_ :: _), acc, used =>
    if rest.length < 4 then .error (.plain .truncated)
    else
      let decl := (be32 rest).toNat
      if rest.length < 12 + decl then .error (.plain .truncated)
      else if acc.length + 1 > p.maxChunks.toNat ∨ used + decl > p.storeCap.toNat then
        .error (.plain .capacity)
      else
        match checkedChunk (Tag.ofBytes (slice rest 4 8)) (slice rest 8 (8 + decl))
            (be32 (slice rest (8 + decl) (12 + decl))) with
        | .error e => .error e
        | .ok k => walkLoop p n (rest.drop (12 + decl)) (acc ++ [k]) (used + decl)

/-- `walk(S)`, the authoritative walk (R109). -/
def walk (p : Params) (stream : List Byte) : Except CmdError (List Chunk) :=
  if stream.length < 8 ∨ slice stream 0 8 ≠ signature then .error (.plain .badSignature)
  else walkLoop p stream.length (stream.drop 8) [] 0

/-- CONT_CLEAR (R110). -/
def execContClear (s : State) : Result := succeed { s with cont := [] }

/-- CONT_PARSE (R112). -/
def execContParse (s : State) : Result :=
  withSource s fun stream =>
    match walk s.params stream with
    | .error e => raise e s
    | .ok ks => succeed { s with cont := ks }

/-- CONT_APPEND (R113): STG is copied and keeps its content. STORE_USED is taken as the exact sum
(10 R35). DEDUCED, safe (log 11). -/
def execContAppend (s : State) : Result :=
  withStage s fun k =>
    if s.cont.length + 1 > s.params.maxChunks.toNat then raise (.plain .capacity) s
    else if dataTotal s.cont + k.data.length > s.params.storeCap.toNat then
      raise (.plain .capacity) s
    else succeed { s with cont := s.cont ++ [k] }

/-- CONT_FIND (R114): never fails. -/
def execContFind (s : State) : Result :=
  match firstOf s.cont s.typeReg with
  | none => succeed { s with index := 0xFFFFFFFF, found := false }
  | some i => succeed { s with index := BitVec.ofNat 32 i, found := true }

/-- The record at a position, staged if STG can hold it: the shared end of CONT_REMOVE and CONT_GET (R115,
R116), whose other writes are those of `s'`. -/
def stageChunk (s s' : State) (k : Chunk) : Result :=
  if k.data.length > s.params.stgCap.toNat then raise (.plain .capacity) s
  else succeed (s'.loadStg k k.len)

/-- CONT_REMOVE (R115). -/
def execContRemove (s : State) : Result :=
  match firstOf s.cont s.typeReg with
  | none => raise (.plain .notFound) s
  | some i =>
    match s.cont[i]? with
    | none => raise (.plain .notFound) s
    | some k => stageChunk s { s with cont := s.cont.eraseIdx i, index := BitVec.ofNat 32 i } k

/-- CONT_GET (R116). -/
def execContGet (s : State) : Result :=
  match s.cont[s.index.toNat]? with
  | none => raise (.plain .indexRange) s
  | some k => stageChunk s s k

/-- CONT_EMIT (R117). -/
def execContEmit (s : State) : Result := emitBytes s (containerStream s.cont)

end Sys2Proof.Machine
end

