-- ==== Sys2Proof/Machine/Control.lean ====
section
/-! DEFINITION. The control commands NOP and SOFT_RESET, and an illegal command word (44_control.md). -/

namespace Sys2Proof.Machine

/-- NOP (R119): completes without effect. -/
def execNop (s : State) : Result := succeed s

/-- SOFT_RESET (R120): every register to its reset value, STG, STG_DECL and CONT cleared; both buffers
keep their cells. CMD reads 0 afterwards; the word of LATCH is no register and stays (10 R46).
DEDUCED, unsafe (log 10). -/
def execSoftReset (s : State) : Result :=
  succeed { s with
    cmd := 0x00000000
    argAddr := 0x00000000
    argLen := 0x00000000
    dstAddr := 0x00000000
    typeReg := 0x00000000
    index := 0x00000000
    resLen := 0x00000000
    crcIn := 0x00
    crcState := 0xFFFFFFFF
    errStored := 0x00000000
    errComputed := 0x00000000
    found := false
    stg := none
    stgDecl := 0x00000000
    cont := [] }

/-- An illegal command word (R121): ILLEGAL_COMMAND and no other effect. -/
def execIllegal (s : State) : Result := raise (.plain .illegalCommand) s

end Sys2Proof.Machine
end

