-- ==== Sys2Proof/Machine/Crc.lean ====
section
/-! DEFINITION. The commands of the streaming CRC engine (40_crc.md). -/

namespace Sys2Proof.Machine

/-- CRC_INIT (R88). -/
def execCrcInit (s : State) : Result := succeed { s with crcState := 0xFFFFFFFF }

/-- CRC_BYTE (R89). -/
def execCrcByte (s : State) : Result := succeed { s with crcState := crcStep s.crcState s.crcIn }

/-- CRC_BUF (R90). -/
def execCrcBuf (s : State) : Result :=
  withSource s fun bs => succeed { s with crcState := crcFold s.crcState bs }

end Sys2Proof.Machine
end

