-- ==== Sys2Proof/Machine/Dispatch.lean ====
section
/-! DEFINITION. The dispatch: one arm for each command of the opcode table. -/

namespace Sys2Proof.Machine

def exec (i : Instr) (s : State) : Host.Outcome State Fault Refusal :=
  match i with
  | .nop => Sys2Proof.Machine.execNop s
  | .softReset => Sys2Proof.Machine.execSoftReset s
  | .crcInit => Sys2Proof.Machine.execCrcInit s
  | .crcByte => Sys2Proof.Machine.execCrcByte s
  | .crcBuf => Sys2Proof.Machine.execCrcBuf s
  | .typeFromStr => Sys2Proof.Machine.execTypeFromStr s
  | .chunkNew => Sys2Proof.Machine.execChunkNew s
  | .chunkParse => Sys2Proof.Machine.execChunkParse s
  | .chunkEmit => Sys2Proof.Machine.execChunkEmit s
  | .chunkDataOut => Sys2Proof.Machine.execChunkDataOut s
  | .contClear => Sys2Proof.Machine.execContClear s
  | .contParse => Sys2Proof.Machine.execContParse s
  | .contAppend => Sys2Proof.Machine.execContAppend s
  | .contRemove => Sys2Proof.Machine.execContRemove s
  | .contFind => Sys2Proof.Machine.execContFind s
  | .contGet => Sys2Proof.Machine.execContGet s
  | .contEmit => Sys2Proof.Machine.execContEmit s

end Sys2Proof.Machine
end

