-- ==== Sys2Proof/Machine/Turn.lean ====
section
/-! DEFINITION. Whose turn it is: the reset input, the sequencer, the host (00 R17, 10 R46, 70 R136). -/

namespace Sys2Proof.Machine

/-- The sequencer's one step (10 R46): the latched word is decoded and run; a word that selects no command is
ILLEGAL (30 R70, R76). -/
def sequencerTurn (s : State) : Result :=
  match decode s.latch with
  | .command i => exec i s
  | .illegal _ => execIllegal s

/-- The agent whose turn it is moves. While BUSY = 1 the host has the turns `delay` still counts, and then the
sequencer takes its step (70 R142, R143); while BUSY = 0 the sequencer has none (10 R46). -/
def agentTurn (s : State) : Result :=
  if s.busy then
    match s.delay with
    | 0 => sequencerTurn s
    | d + 1 => hostTurn { s with delay := d }
  else hostTurn s

/-- One step of the machine: the level of the reset input first (70 R136), then an agent's turn. No other agent
changes the state (60 R133). DEDUCED, unsafe (log 14). -/
def turn (s : State) : Result :=
  match s.resetIn with
  | [] => agentTurn s
  | true :: levels => .next { s.hardReset with resetIn := levels }
  | false :: levels => agentTurn { s with resetIn := levels }

end Sys2Proof.Machine
end

