-- ==== Sys2Proof/Machine/Step.lean ====
section
/-! DEFINITION. The step of the machine, and the placing of one command word where the next step runs it. -/

namespace Sys2Proof.Machine

/-- One step (Machine/Turn.lean). -/
def step (s : State) : Host.Outcome State Fault Refusal := turn s

/-- The table's word `w` latched so that the very next step is the sequencer's step for it: the block fetches
nothing, a command comes by a CMD write (10 R22). DEDUCED, safe (log 9). -/
def State.withFetchWord (s : State) (nbits w : Nat) : State := s.latchNow (tableWord nbits w)

end Sys2Proof.Machine
end

