-- ==== Sys2Proof/Machine/Script.lean ====
section
/-! DEFINITION. The host script (30 R78 to R80): its lines, their expansion into bus operations and branches, the
encoding of a program. -/

namespace Sys2Proof.Machine

/-- One line of a script. A label is named by a number; only whether two are the same matters. The lines after
`label` are the pseudo-instructions of R79. -/
inductive ScriptLine where
  | wr (r : RegName) (imm : Word)
  | rd (r : RegName)
  | srcb (i : Nat) (bytes : List Byte)
  | dstb (i n : Nat)
  | bz (mask : Word) (label : Nat)
  | bnz (mask : Word) (label : Nat)
  | halt
  | label (l : Nat)
  | cmd (i : Instr)
  | wait
  | run (i : Instr)
  | srcs (i : Nat) (text : String)
  | setType (text : String)
  | setArg (a n : Word)
  | crcOf (a n : Word)
  | check
  deriving DecidableEq, Repr

/-- Every character of a text has an ASCII code. R79 speaks of ASCII codes only and gives a text with another
character no bytes: such a script has no encoding. DESIGN CHOICE, safe (log 17). -/
def isAscii (text : String) : Bool := text.toList.all fun c => c.toNat < 128

/-- The ASCII bytes of a text, one for each character (R79); used for texts that are `isAscii` only. -/
def textBytes (text : String) : List Byte := text.toList.map fun c => BitVec.ofNat 8 c.toNat

/-- `WR NAME, imm32` (R78). -/
def opWr (r : RegName) (w : Word) : HostOp := .access (.regWrite r.offset w)

/-- `RD NAME` (R78). -/
def opRd (r : RegName) : HostOp := .access (.regRead r.offset)

/-- `SRCB i, b0, b1, ...` (R78). -/
def opsSrcb : Nat → List Byte → List HostOp
  | _, [] => []
  | i, b :: bs => .access (.srcPut i b) :: opsSrcb (i + 1) bs

/-- `DSTB i, n` (R78). -/
def opsDstb : Nat → Nat → List HostOp
  | _, 0 => []
  | i, n + 1 => .access (.dstGet i) :: opsDstb (i + 1) n

/-- `CMD MNEMONIC` (R79). -/
def opCmd (i : Instr) : HostOp := opWr .cmd (encode i)

/-- `WAIT` at position `at_` (R79): its fresh label is that position. -/
def opsWait (at_ : Nat) : List HostOp := [opRd .status, .bnz 0x1 at_]

/-- `RUN MNEMONIC` (R79). -/
def opsRun (at_ : Nat) (i : Instr) : List HostOp := opCmd i :: opsWait (at_ + 1)

/-- `SETARG a, n` (R79). -/
def opsSetArg (a n : Word) : List HostOp := [opWr .argAddr a, opWr .argLen n]

/-- The expansion of a line that stands at position `at_` (R78, R79); `target` gives the position of a label. -/
def ScriptLine.ops (target : Nat → Nat) (at_ : Nat) : ScriptLine → List HostOp
  | .wr r imm => [opWr r imm]
  | .rd r => [opRd r]
  | .srcb i bytes => opsSrcb i bytes
  | .dstb i n => opsDstb i n
  | .bz mask l => [.bz mask (target l)]
  | .bnz mask l => [.bnz mask (target l)]
  | .halt => [.halt]
  | .label _ => []
  | .cmd i => [opCmd i]
  | .wait => opsWait at_
  | .run i => opsRun at_ i
  | .srcs i text => opsSrcb i (textBytes text)
  | .setType text => [opWr .type (be32 (textBytes text))]
  | .setArg a n => opsSetArg a n
  | .crcOf a n =>
    opsSetArg a n ++ opsRun (at_ + 2) .crcInit ++ opsRun (at_ + 5) .crcBuf ++ [opRd .crcValue]
  | .check => [opRd .errcode]

/-- How many operations a line takes. -/
def ScriptLine.size (line : ScriptLine) : Nat := (line.ops (fun _ => 0) 0).length

/-- The position of the first line `label l` of a script whose first line stands at position `at_`. -/
def labelPosition (l : Nat) : Nat → List ScriptLine → Option Nat
  | _, [] => none
  | at_, line :: rest =>
    if line = .label l then some at_ else labelPosition l (at_ + line.size) rest

/-- A script's branches go to labels it has, no label stands twice, every text is ASCII, and SETTYPE has four
characters. DESIGN CHOICE, safe (logs 13, 17): the spec gives no other script a meaning. -/
def scriptWellFormed (script : List ScriptLine) : Bool :=
  script.all (fun line =>
    match line with
    | .bz _ l | .bnz _ l => (labelPosition l 0 script).isSome
    | .label l => script.count (.label l) == 1
    | .srcs _ text => isAscii text
    | .setType text => text.toList.length == 4 && isAscii text
    | _ => true)

/-- The expansions of the lines one after the other. -/
def expandFrom (target : Nat → Nat) : Nat → List ScriptLine → List HostOp
  | _, [] => []
  | at_, line :: rest => line.ops target at_ ++ expandFrom target (at_ + line.size) rest

/-- The encoding of a host program (R80); none if it is not well-formed. -/
def assemble (script : List ScriptLine) : Option (List HostOp) :=
  if scriptWellFormed script then
    some (expandFrom (fun l => (labelPosition l 0 script).getD 0) 0 script)
  else none

/-- The host is given an encoded program to run from its first operation (log 4). -/
def State.withProgram (s : State) (prog : List HostOp) : State :=
  { s with host := { HostAgent.idle with prog := prog } }

end Sys2Proof.Machine
end

