-- ==== Sys2Proof/Safety.lean ====
section
/-! DEFINITION. The terms in which statements are made: the end of a run and its result (00 R19), the invariants
(10 R26, R44, R45; 60 R123), what a command reads, writes and raises (30 R74, 60 R124). -/

namespace Sys2Proof.Machine

/-- A run has ended: the host has performed its last access and BUSY = 0 (00 R19). -/
def State.runEnded (s : State) : Bool := s.host.ended && !s.busy

/-- The observable result of a run that has ended: the registers and the DST bytes written (00 R19); a run
that ends with BUSY = 1 has none. A program with no WAIT after its last CMD gets its result once the sequencer has
taken its step, since 00 R19 ends a run only at BUSY = 0; 30 R80 says that it "may end with BUSY = 1 and has no
observable result". DESIGN CHOICE, unsafe for a statement about the result of such a program (log 16). -/
def observable (s : State) : Option (List Word × Memory) :=
  if s.runEnded then some (RegName.all.map (regRead s), s.dst) else none

/-- The invariants of 10 R44, and STG's of 10 R41: the counts within the capacities, every crc right. -/
def State.chunksOk (s : State) : Prop :=
  s.cont.length ≤ s.params.maxChunks.toNat
  ∧ dataTotal s.cont ≤ s.params.storeCap.toNat
  ∧ (∀ k ∈ s.cont, k.crc = chunkCrc k.type k.data)
  ∧ (∀ k, s.stg = some k → k.crc = chunkCrc k.type k.data ∧ k.data.length ≤ s.params.stgCap.toNat)

/-- Both buffers are in canonical form and hold only cells of the buffer (10 R45). -/
def State.buffersOk (s : State) : Prop :=
  s.src.wf ∧ s.dst.wf ∧ s.src.within s.params.srcSize ∧ s.dst.within s.params.dstSize

/-- "BUSY = 1 and DONE = 1 never hold at once" (10 R26). -/
def State.handshakeOk (s : State) : Prop := ¬(s.busy = true ∧ s.done = true)

/-- The codes the block ever writes (60 R123): not 0x05, 0x07 or 0x08. -/
def ErrCode.used : ErrCode → Bool
  | .invalidEncoding | .internal | .invalidArgument => false
  | _ => true

/-- The commands that read the SRC range (30 R74). -/
def commandReadsSource : Instr → Bool
  | .crcBuf | .typeFromStr | .chunkNew | .chunkParse | .contParse => true
  | _ => false

/-- The SRC range of the next command lies in the buffer and its cells hold `bs` (20 R56). -/
def State.srcHolds (s : State) (bs : List Byte) : Prop :=
  bs.length = s.argLen.toNat
  ∧ s.argAddr.toNat + s.argLen.toNat ≤ s.params.srcSize.toNat
  ∧ ∀ j, j < s.argLen.toNat → s.src.read (s.argAddr.toNat + j) = bs[j]?

/-- The SRC range of the next command does not fit in the buffer (20 R58); the sum is exact (00 R10). -/
def State.srcTooLong (s : State) : Prop :=
  s.params.srcSize.toNat < s.argAddr.toNat + s.argLen.toNat

/-- The SRC range of the next command fits and holds an unwritten cell (20 R55). -/
def State.srcUnwritten (s : State) : Prop :=
  s.argAddr.toNat + s.argLen.toNat ≤ s.params.srcSize.toNat
  ∧ ∃ j, j < s.argLen.toNat ∧ s.src.read (s.argAddr.toNat + j) = none

/-- An alphabetic byte, `A` to `Z` or `a` to `z` (41 R92). -/
def isLetter (b : Byte) : Prop :=
  (0x41 ≤ b.toNat ∧ b.toNat ≤ 0x5A) ∨ (0x61 ≤ b.toNat ∧ b.toNat ≤ 0x7A)

/-- A record matches the TYPE register: its four bytes are those of TYPE (43 R107). -/
def State.matchesType (s : State) (k : Chunk) : Prop := k.type.bytes = be32bytes s.typeReg

/-- `i` is `first(TYPE)` and `k` the record there (43 R108). -/
def State.firstMatch (s : State) (i : Nat) (k : Chunk) : Prop :=
  s.cont[i]? = some k ∧ s.matchesType k
  ∧ ∀ j, j < i → ∀ l, s.cont[j]? = some l → ¬ s.matchesType l

/-- `n` bytes at DST_ADDR lie in the buffer (20 R57). -/
def State.dstFits (s : State) (n : Nat) : Prop := s.dstAddr.toNat + n ≤ s.params.dstSize.toNat

/-- The bytes of `out` stand in `m` from `a`, and every other cell is as in `m₀` (20 R57). -/
def Memory.holdsOver (m m₀ : Memory) (a : Nat) (out : List Byte) : Prop :=
  (∀ j, j < out.length → m.read (a + j) = out[j]?)
  ∧ ∀ x, x < a ∨ a + out.length ≤ x → m.read x = m₀.read x

/-- The components of the block that a command can write, besides ERRCODE, BUSY and DONE. -/
inductive Component where
  | cmd | argAddr | argLen | dstAddr | type | index | resLen | crcIn | crcState
  | errStored | errComputed | found | stg | stgDecl | cont | dst
  deriving DecidableEq, Repr

/-- Two states agree on a component. -/
def Component.same (s t : State) : Component → Prop
  | .cmd => s.cmd = t.cmd
  | .argAddr => s.argAddr = t.argAddr
  | .argLen => s.argLen = t.argLen
  | .dstAddr => s.dstAddr = t.dstAddr
  | .type => s.typeReg = t.typeReg
  | .index => s.index = t.index
  | .resLen => s.resLen = t.resLen
  | .crcIn => s.crcIn = t.crcIn
  | .crcState => s.crcState = t.crcState
  | .errStored => s.errStored = t.errStored
  | .errComputed => s.errComputed = t.errComputed
  | .found => s.found = t.found
  | .stg => s.stg = t.stg
  | .stgDecl => s.stgDecl = t.stgDecl
  | .cont => s.cont = t.cont
  | .dst => s.dst = t.dst

/-- The column "state written on success" of 30 R74. -/
def commandWrites : Instr → List Component
  | .nop => []
  | .softReset =>
    [.cmd, .argAddr, .argLen, .dstAddr, .type, .index, .resLen, .crcIn, .crcState, .errStored,
     .errComputed, .found, .stg, .stgDecl, .cont]
  | .crcInit | .crcByte | .crcBuf => [.crcState]
  | .typeFromStr => [.type]
  | .chunkNew | .chunkParse => [.stg, .stgDecl]
  | .chunkEmit | .chunkDataOut | .contEmit => [.dst, .resLen]
  | .contClear | .contParse | .contAppend => [.cont]
  | .contRemove => [.cont, .stg, .stgDecl, .index]
  | .contFind => [.index, .found]
  | .contGet => [.stg, .stgDecl]

/-- What of the block a command reads besides its SRC range and the capacities: the column "registers read" of
30 R74, with STG and CONT where the command's rule reads them (10 R41, R43). -/
def commandReads : Instr → List Component
  | .nop | .softReset | .crcInit | .contClear => []
  | .crcByte => [.crcIn, .crcState]
  | .crcBuf => [.argAddr, .argLen, .crcState]
  | .typeFromStr | .chunkParse | .contParse => [.argAddr, .argLen]
  | .chunkNew => [.type, .argAddr, .argLen]
  | .chunkEmit | .chunkDataOut => [.dstAddr, .stg]
  | .contAppend => [.stg, .cont]
  | .contRemove | .contFind => [.type, .cont]
  | .contGet => [.index, .cont]
  | .contEmit => [.dstAddr, .cont]

/-- Two states agree on all that the command reads (00 R18): the capacities, the registers and chunk storage of
`commandReads`, and the cells of its SRC range. -/
def commandAgree (i : Instr) (s t : State) : Prop :=
  s.params = t.params
  ∧ (∀ c ∈ commandReads i, Component.same s t c)
  ∧ (commandReadsSource i = true → ∀ j, j < s.argLen.toNat →
      s.src.read (s.argAddr.toNat + j) = t.src.read (s.argAddr.toNat + j))

/-- The errors a command can report (60 R123, R124). -/
def commandRaises : Instr → List ErrCode
  | .nop | .softReset | .crcInit | .crcByte | .contClear | .contFind => []
  | .crcBuf => [.bounds]
  | .typeFromStr => [.bounds, .invalidFormat]
  | .chunkNew => [.bounds, .capacity]
  | .chunkParse => [.bounds, .truncated, .capacity, .checksumMismatch]
  | .chunkEmit | .chunkDataOut => [.stageEmpty, .bounds]
  | .contParse => [.bounds, .badSignature, .truncated, .capacity, .checksumMismatch]
  | .contAppend => [.stageEmpty, .capacity]
  | .contRemove => [.notFound, .capacity]
  | .contGet => [.indexRange, .capacity]
  | .contEmit => [.bounds]

/-- A chunk sequence the container can hold, every crc right (10 R44). -/
def storable (p : Params) (ks : List Chunk) : Prop :=
  ks.length ≤ p.maxChunks.toNat
  ∧ dataTotal ks ≤ p.storeCap.toNat
  ∧ ∀ k ∈ ks, k.crc = chunkCrc k.type k.data

/-- The reset input is low at the coming step (70 R136). -/
def State.resetLow (s : State) : Prop := s.resetIn.headD false = false

/-- The state an agent's turn of the coming step starts from: the level of the reset input consumed. -/
def State.afterLevel (s : State) : State := { s with resetIn := s.resetIn.tail }

/-- The coming step is the sequencer's (10 R46): the reset input is low, BUSY = 1, no host turn left. -/
def State.sequencerNext (s : State) : Prop := s.resetLow ∧ s.busy = true ∧ s.delay = 0

/-- The coming step is the host's, for the operation `op` at its position, with BUSY = 0. -/
def State.hostNext (s : State) (op : HostOp) : Prop :=
  s.resetLow ∧ s.busy = false ∧ s.host.prog[s.host.pos]? = some op

/-- The coming step is the host's, with BUSY = 0 or within the host turns that log 1 leaves while BUSY = 1. -/
def State.hostMoves (s : State) : Prop := s.resetLow ∧ (s.busy = true → s.delay ≠ 0)

/-- The state the host's turn of the coming step starts from: the level of the reset input consumed, and while
BUSY = 1 one host turn (log 1). -/
def State.hostTurnTaken (s : State) : State :=
  { s.afterLevel with delay := if s.busy then s.delay - 1 else s.delay }

end Sys2Proof.Machine
end

