-- ==== Sys2Proof/Certificates/Slice0/Obligations.lean ====
section
/-! DEFINITION. The statements for the provers. -/

open Sys2Proof Sys2Proof.Machine

/-! ### Command words and the step -/

/-- The opcode map of R75 and words that R76 calls ILLEGAL, each written out. -/
def Obligations.TableWordsDecode : Prop :=
  decode 0x00000000 = .command .nop ∧ decode 0x00000001 = .command .softReset
  ∧ decode 0x00000010 = .command .crcInit ∧ decode 0x00000011 = .command .crcByte
  ∧ decode 0x00000012 = .command .crcBuf ∧ decode 0x00000020 = .command .typeFromStr
  ∧ decode 0x00000030 = .command .chunkNew ∧ decode 0x00000031 = .command .chunkParse
  ∧ decode 0x00000032 = .command .chunkEmit ∧ decode 0x00000033 = .command .chunkDataOut
  ∧ decode 0x00000040 = .command .contClear ∧ decode 0x00000041 = .command .contParse
  ∧ decode 0x00000042 = .command .contAppend ∧ decode 0x00000043 = .command .contRemove
  ∧ decode 0x00000044 = .command .contFind ∧ decode 0x00000045 = .command .contGet
  ∧ decode 0x00000046 = .command .contEmit
  ∧ decode 0x00000100 = .illegal .reservedBits ∧ decode 0x80000010 = .illegal .reservedBits
  ∧ decode 0x00000002 = .illegal .unknownOpcode ∧ decode 0x00000013 = .illegal .unknownOpcode
  ∧ decode 0x00000047 = .illegal .unknownOpcode

/-- R70: a word selects a command by its two fields; every word decodes, to one command or to ILLEGAL; the one
word of a command is its encoding. -/
def Obligations.WordSelectsCommandByItsFields : Prop :=
  ∀ w : Word,
    (∀ i : Instr, decode w = .command i ↔ w.extractLsb' 8 24 = 0 ∧ w.extractLsb' 0 8 = i.opcode)
    ∧ (∀ i : Instr, decode w = .command i ↔ w = encode i)
    ∧ ((∃ why, decode w = .illegal why) ↔ ∀ i : Instr, w ≠ encode i)

/-- R46: the sequencer's step executes LATCH: when it is next, a step is `exec` of the decoded command on the state
whose reset level is consumed. -/
def Obligations.SequencerRunsLatchedCommand : Prop :=
  ∀ (s : State) (i : Instr), s.sequencerNext → decode s.latch = .command i →
    step s = exec i s.afterLevel

/-- R121: a word with non-zero bits 31:8 or with no opcode in bits 7:0 completes with ILLEGAL_COMMAND and nothing
else, through the same handshake. -/
def Obligations.IllegalWordCompletesWithoutEffect : Prop :=
  ∀ s : State, s.sequencerNext →
    (s.latch.extractLsb' 8 24 ≠ 0 ∨ ∀ i : Instr, s.latch.extractLsb' 0 8 ≠ i.opcode) →
    ∃ t, step s = .next t
      ∧ t = { s.afterLevel with errcode := .illegalCommand, busy := false, done := true }
      ∧ regRead t .errcode = 0x09 ∧ (regRead t .status).getLsbD 2 = true

/-- R136: the hardware reset gives every component of the block its reset value and abandons a latched command.
The capacities are fixed for the block; the host and the count of CMD writes are no part of it (logs 1, 4). -/
def Obligations.HardwareResetRestoresBlock : Prop :=
  ∀ (s : State) (levels : List Bool), s.resetIn = true :: levels →
    step s = .next { State.resetWith s.params with
      host := s.host, resetIn := levels, issued := s.issued }

/-- R48 with the table of R23: what every register reads after a hardware reset, and that STG, CONT, both buffers
and LATCH are empty, for any capacities; the same holds of `State.resetWith`. -/
def Obligations.ResetValuesOfEveryComponent : Prop :=
  let restored : Params → State → Prop := fun p t =>
    RegName.all.map (regRead t) =
      [0x504E4743, 0, 0, 0, 0, 0, 0, 0, 0x1C, 0, 0, 0, 0xFFFFFFFF, 0, 0, 0, 0, 0, 0, 0, 0, 0,
       0x89504E47, 0x0D0A1A0A, p.maxChunks, p.storeCap, p.stgCap, p.srcSize, p.dstSize]
    ∧ t.stg = none ∧ t.stgDecl = 0 ∧ t.cont = []
    ∧ (∀ a, t.src.read a = none) ∧ (∀ a, t.dst.read a = none)
    ∧ t.latch = 0 ∧ t.busy = false
  RegName.all.map RegName.offset = (List.range 29).map (4 * ·)
  ∧ (∀ p, restored p (State.resetWith p))
  ∧ ∀ (s : State) (levels : List Bool), s.resetIn = true :: levels →
      ∃ t, step s = .next t ∧ restored s.params t

/-! ### The host's accesses -/

/-- R25 and R46: a CMD write while BUSY = 0 stores the word, latches it, sets BUSY and clears DONE, in one access.
How many host turns follow is the free value of log 1: this holds whatever it is. -/
def Obligations.CmdWriteLatchesCommand : Prop :=
  ∀ (s : State) (w : Word), s.hostNext (.access (.regWrite 0x04 w)) →
    step s = .next { s.afterLevel with
      cmd := w, latch := w, busy := true, done := false
      delay := Config.commandTurns s.issued, issued := s.issued + 1
      host := { s.host with pos := s.host.pos + 1 } }

/-- R51 and the table of R23: a host write to any other RW register stores the word there and nothing else; CRC_IN
stores bits 7:0 (R33). -/
def Obligations.RegisterWriteStoresWord : Prop :=
  ∀ (s : State) (off : Nat) (w : Word), s.hostNext (.access (.regWrite off w)) →
    let t : State := { s.afterLevel with host := { s.host with pos := s.host.pos + 1 } }
    (off = 0x10 → step s = .next { t with argAddr := w })
    ∧ (off = 0x14 → step s = .next { t with argLen := w })
    ∧ (off = 0x18 → step s = .next { t with dstAddr := w })
    ∧ (off = 0x1C → step s = .next { t with typeReg := w })
    ∧ (off = 0x24 → step s = .next { t with index := w })
    ∧ (off = 0x2C → ∃ u, step s = .next { t with crcIn := u } ∧ u.setWidth 32 = w &&& 0xFF)

/-- R51 and R52: a read of a mapped register returns its value and changes nothing of the block. -/
def Obligations.RegisterReadHasNoSideEffect : Prop :=
  ∀ (s : State) (r : RegName), s.hostNext (.access (.regRead r.offset)) →
    step s = .next { s.afterLevel with
      host := { s.host with pos := s.host.pos + 1, v := regRead s r } }

/-- R39 and R52: an access to REG that is not a word access at a mapped offset, or that writes an RO register, is
the model fault ProtocolAccess. -/
def Obligations.ForbiddenRegisterAccessFaults : Prop :=
  ∀ (s : State) (width : Width) (off : Nat) (w : Word),
    (s.hostNext (.access (.read .reg width off)) →
      width ≠ .word ∨ off % 4 ≠ 0 ∨ 0x74 ≤ off → step s = .fault .protocolAccess)
    ∧ (s.hostNext (.access (.write .reg width off w)) →
      width ≠ .word ∨ off % 4 ≠ 0 ∨ off ∉ [0x04, 0x10, 0x14, 0x18, 0x1C, 0x24, 0x2C] →
      step s = .fault .protocolAccess)

/-- R51, R53 to R55 for SRC: a byte write in range makes the cell written; a byte read of a written cell returns
its byte (to the script's output, log 4); anything else is the fault the rules name. -/
def Obligations.SourceBufferAccess : Prop :=
  ∀ (s : State) (width : Width) (i : Nat) (w : Word),
    (s.hostNext (.access (.write .src width i w)) →
      (width = .byte → i < s.params.srcSize.toNat →
        ∃ m, m.holdsOver s.src i [w.setWidth 8]
          ∧ step s = .next { s.afterLevel with
              src := m, host := { s.host with pos := s.host.pos + 1 } })
      ∧ (width ≠ .byte ∨ s.params.srcSize.toNat ≤ i → step s = .fault .protocolAccess))
    ∧ (s.hostNext (.access (.read .src width i)) →
      (width = .byte → i < s.params.srcSize.toNat →
        (∀ b, s.src.read i = some b →
          step s = .next { s.afterLevel with
            host := { s.host with pos := s.host.pos + 1, out := s.host.out ++ [b] } })
        ∧ (s.src.read i = none → step s = .fault .unwrittenSource))
      ∧ (width ≠ .byte ∨ s.params.srcSize.toNat ≤ i → step s = .fault .protocolAccess))

/-- R51, R53 to R55 for DST: a byte read of a written cell returns its byte; every host write is ProtocolAccess. -/
def Obligations.DestinationBufferAccess : Prop :=
  ∀ (s : State) (width : Width) (i : Nat) (w : Word),
    (s.hostNext (.access (.write .dst width i w)) → step s = .fault .protocolAccess)
    ∧ (s.hostNext (.access (.read .dst width i)) →
      (width = .byte → i < s.params.dstSize.toNat →
        (∀ b, s.dst.read i = some b →
          step s = .next { s.afterLevel with
            host := { s.host with pos := s.host.pos + 1, out := s.host.out ++ [b] } })
        ∧ (s.dst.read i = none → step s = .fault .unwrittenDest))
      ∧ (width ≠ .byte ∨ s.params.dstSize.toNat ≤ i → step s = .fault .protocolAccess))

/-- R139: while BUSY = 1 and the host has a turn, a STATUS read returns a word with BUSY = 1 and changes nothing of
the block; every other bus operation is ProtocolBusy. That ProtocolBusy, and not ProtocolAccess, UnwrittenSource
or UnwrittenDest, is reported for an access that another rule makes a fault as well is the model's choice (log 15). -/
def Obligations.OnlyStatusReadWhileBusy : Prop :=
  ∀ (s : State) (d : Nat) (a : Access), s.resetLow → s.busy = true → s.delay = d + 1 →
    s.host.prog[s.host.pos]? = some (.access a) →
    (a = .readStatus →
      step s = .next { s.afterLevel with
        delay := d, host := { s.host with pos := s.host.pos + 1, v := regRead s .status } }
      ∧ (regRead s .status).getLsbD 0 = true)
    ∧ (a ≠ .readStatus → step s = .fault .protocolBusy)

/-- R78: BZ goes to its label if `(v & mask) = 0`, BNZ if not; no bus operation, nothing of the block changes. So in
every host turn, with BUSY = 0 or BUSY = 1; in the second one of the turns of log 1 is counted. -/
def Obligations.HostBranchesFollowValue : Prop :=
  ∀ (s : State) (mask : Word) (target : Nat), s.hostMoves →
    let go : Nat → State := fun n => { s.hostTurnTaken with host := { s.host with pos := n } }
    (s.host.prog[s.host.pos]? = some (.bz mask target) →
      (s.host.v &&& mask = 0 → step s = .next (go target))
      ∧ (s.host.v &&& mask ≠ 0 → step s = .next (go (s.host.pos + 1))))
    ∧ (s.host.prog[s.host.pos]? = some (.bnz mask target) →
      (s.host.v &&& mask ≠ 0 → step s = .next (go target))
      ∧ (s.host.v &&& mask = 0 → step s = .next (go (s.host.pos + 1))))

/-- R46 and R135: while BUSY = 0 the sequencer has no step, and once the host has ended the block holds all state;
a host turn of an ended host while BUSY = 1 holds it too, but for the count of such turns (log 1). That such a step is
a next state is the model's choice (log 8). -/
def Obligations.IdleBlockHoldsState : Prop :=
  ∀ s : State, s.host.ended = true →
    (s.resetLow → s.busy = false → step s = .next s.afterLevel)
    ∧ (s.hostMoves → step s = .next s.hostTurnTaken)

/-! ### Register values -/

/-- R26: the fields of STATUS. -/
def Obligations.StatusFields : Prop :=
  ∀ (s : State) (i : Nat), (regRead s .status).getLsbD i =
    if i = 0 then s.busy
    else if i = 1 then s.done
    else if i = 2 then s.errcode != .none
    else if i = 3 then s.found
    else if i = 4 then s.stg.isSome
    else false

/-- R98 with R92 to R97: the bits of TFLAGS, each from the bits of TYPE; error 0x08 is never raised. -/
def Obligations.TypeFlagsOfTypeRegister : Prop :=
  (∀ (i : Instr) (s t : State), exec i s = .next t → t.errcode ≠ .invalidArgument)
  ∧ ∀ s : State,
    let f := regRead s .tflags
    let w := s.typeReg
    (f.getLsbD 0 = true ↔ ∀ b ∈ be32bytes w, isLetter b)
    ∧ (f.getLsbD 1 = true ↔ (∀ b ∈ be32bytes w, isLetter b) ∧ w.getLsbD 13 = false)
    ∧ f.getLsbD 2 = !w.getLsbD 29 ∧ f.getLsbD 3 = !w.getLsbD 21 ∧ f.getLsbD 4 = !w.getLsbD 13
    ∧ f.getLsbD 5 = w.getLsbD 5 ∧ ∀ i, 6 ≤ i → f.getLsbD i = false

/-- R24, R33 to R35, R37, R38: what the read-only views read. -/
def Obligations.ReadOnlyViews : Prop :=
  ∀ s : State,
    regRead s .id = 0x504E4743 ∧ regRead s .crcValue = s.crcState ^^^ 0xFFFFFFFF
    ∧ regRead s .crcIn &&& 0xFFFFFF00 = 0
    ∧ (∀ k, s.stg = some k →
        be32bytes (regRead s .stgType) = k.type.bytes
        ∧ regRead s .stgLen = BitVec.ofNat 32 k.data.length ∧ regRead s .stgCrc = k.crc)
    ∧ (s.stg = none →
        regRead s .stgType = 0 ∧ regRead s .stgLen = 0 ∧ regRead s .stgCrc = 0)
    ∧ regRead s .stgDeclLen = s.stgDecl
    ∧ regRead s .cntCount = BitVec.ofNat 32 s.cont.length
    ∧ regRead s .storeUsed = BitVec.ofNat 32 (s.cont.map (fun k => k.data.length)).sum
    ∧ be32bytes (regRead s .sigHi) ++ be32bytes (regRead s .sigLo)
        = [0x89, 0x50, 0x4E, 0x47, 0x0D, 0x0A, 0x1A, 0x0A]
    ∧ regRead s .capChunks = s.params.maxChunks ∧ regRead s .capStore = s.params.storeCap
    ∧ regRead s .capStg = s.params.stgCap ∧ regRead s .capSrc = s.params.srcSize
    ∧ regRead s .capDst = s.params.dstSize

/-- R25, R28, R29, R31 to R33, R36: a register that stores a word reads the word it holds, CRC_IN the byte it holds;
and R91, for every RW register: a register read back equals what the host wrote, in CRC_IN its bits 7:0. -/
def Obligations.StoredRegistersReadBack : Prop :=
  (∀ s : State,
    regRead s .cmd = s.cmd ∧ regRead s .argAddr = s.argAddr ∧ regRead s .argLen = s.argLen
    ∧ regRead s .dstAddr = s.dstAddr ∧ regRead s .type = s.typeReg ∧ regRead s .index = s.index
    ∧ regRead s .resLen = s.resLen ∧ regRead s .crcState = s.crcState
    ∧ regRead s .errStored = s.errStored ∧ regRead s .errComputed = s.errComputed
    ∧ (regRead s .crcIn).extractLsb' 0 8 = s.crcIn)
  ∧ ∀ (s : State) (r : RegName) (w : Word),
      r ∈ [.cmd, .argAddr, .argLen, .dstAddr, .type, .index, .crcIn] →
      s.hostNext (.access (.regWrite r.offset w)) →
      ∃ t, step s = .next t ∧ regRead t r = if r = .crcIn then w &&& 0xFF else w

/-! ### The commands -/

/-- R119: NOP completes without effect. -/
def Obligations.NopCompletesWithoutEffect : Prop :=
  decode 0x00000000 = .command .nop
  ∧ ∀ s : State, exec .nop s = .next { s with errcode := .none, busy := false, done := true }

/-- R120: SOFT_RESET gives every register and the chunk state its reset value, keeps both buffers, ends with
STATUS = 0x02. What LATCH holds afterwards is left open here (log 10). -/
def Obligations.SoftResetKeepsBuffers : Prop :=
  decode 0x00000001 = .command .softReset
  ∧ ∀ s : State, ∃ t, exec .softReset s = .next t
    ∧ t = { State.resetWith s.params with
        done := true, latch := t.latch, src := s.src, dst := s.dst, host := s.host
        resetIn := s.resetIn, delay := s.delay, issued := s.issued }
    ∧ regRead t .status = 0x02 ∧ regRead t .cmd = 0 ∧ regRead t .tflags = 0x1C
    ∧ regRead t .crcValue = 0

/-- R88: CRC_INIT sets CRC_STATE; twice is once; CRC_VALUE reads 0 afterwards. -/
def Obligations.CrcInitSetsEngine : Prop :=
  decode 0x00000010 = .command .crcInit
  ∧ ∀ s : State, ∃ t, exec .crcInit s = .next t
    ∧ t = { s with crcState := 0xFFFFFFFF, errcode := .none, busy := false, done := true }
    ∧ exec .crcInit t = .next t ∧ regRead t .crcValue = 0

/-- R89: CRC_BYTE feeds the byte of CRC_IN; the rule's two computed values. -/
def Obligations.CrcByteFeedsOneByte : Prop :=
  decode 0x00000011 = .command .crcByte
  ∧ crcStep 0xFFFFFFFF 0x31 = 0x7C231048 ∧ crcStep 0xFFFFFFFF 0x00 = 0x2DFD1072
  ∧ ∀ s : State, exec .crcByte s = .next { s with
      crcState := crcStep s.crcState s.crcIn, errcode := .none, busy := false, done := true }

/-- R90: CRC_BUF feeds the SRC range; BOUNDS leaves CRC_STATE; an unwritten cell is the model fault. -/
def Obligations.CrcBufFeedsRange : Prop :=
  decode 0x00000012 = .command .crcBuf
  ∧ ∀ s : State,
    (∀ bs, s.srcHolds bs → exec .crcBuf s = .next { s with
      crcState := bs.foldl crcStep s.crcState, errcode := .none, busy := false, done := true })
    ∧ (s.srcTooLong → exec .crcBuf s = .next (s.complete .bounds))
    ∧ (s.srcUnwritten → exec .crcBuf s = .fault .unwrittenSource)

/-- R99: TYPE_FROM_STR loads exactly four letters, refuses every other string with INVALID_FORMAT, and does not
check the reserved bit. -/
def Obligations.TypeFromStrLoadsFourLetters : Prop :=
  decode 0x00000020 = .command .typeFromStr
  ∧ ∀ s : State,
    (∀ t : Tag, s.srcHolds t.bytes → (∀ b ∈ t.bytes, isLetter b) →
      exec .typeFromStr s = .next { s with
        typeReg := t.toWord, errcode := .none, busy := false, done := true })
    ∧ (∀ bs, s.srcHolds bs → bs.length ≠ 4 ∨ (∃ b ∈ bs, ¬ isLetter b) →
      exec .typeFromStr s = .next (s.complete .invalidFormat))
    ∧ (s.srcTooLong → exec .typeFromStr s = .next (s.complete .bounds))
    ∧ (s.srcUnwritten → exec .typeFromStr s = .fault .unwrittenSource)

/-- R100: CHUNK_NEW stages a record of TYPE and the SRC range with its crc; CAPACITY above STG_CAP. -/
def Obligations.ChunkNewStagesRecord : Prop :=
  decode 0x00000030 = .command .chunkNew
  ∧ ∀ s : State,
    (∀ d, s.srcHolds d → d.length ≤ s.params.stgCap.toNat →
      exec .chunkNew s = .next { s with
        stg := some ⟨Tag.ofWord s.typeReg, d, crc32 (be32bytes s.typeReg ++ d)⟩
        stgDecl := s.argLen, errcode := .none, busy := false, done := true })
    ∧ (∀ d, s.srcHolds d → s.params.stgCap.toNat < d.length →
      exec .chunkNew s = .next (s.complete .capacity))
    ∧ (s.srcTooLong → exec .chunkNew s = .next (s.complete .bounds))
    ∧ (s.srcUnwritten → exec .chunkNew s = .fault .unwrittenSource)

/-- R101: CHUNK_PARSE, the permissive parse: any declared length is accepted and kept in STG_DECL; the checks in
their order are length, capacity, CRC; a wrong CRC is recorded with the recomputed one. -/
def Obligations.ChunkParseIsPermissive : Prop :=
  decode 0x00000031 = .command .chunkParse
  ∧ ∀ s : State,
    (∀ (decl : Word) (t : Tag) (d : List Byte) (stored : Word),
      s.srcHolds (be32bytes decl ++ t.bytes ++ d ++ be32bytes stored) →
      (d.length ≤ s.params.stgCap.toNat → stored = crc32 (t.bytes ++ d) →
        exec .chunkParse s = .next { s with
          stg := some ⟨t, d, stored⟩, stgDecl := decl
          errcode := .none, busy := false, done := true })
      ∧ (d.length ≤ s.params.stgCap.toNat → stored ≠ crc32 (t.bytes ++ d) →
        exec .chunkParse s = .next { s with
          errStored := stored, errComputed := crc32 (t.bytes ++ d)
          errcode := .checksumMismatch, busy := false, done := true })
      ∧ (s.params.stgCap.toNat < d.length → exec .chunkParse s = .next (s.complete .capacity)))
    ∧ (∀ f, s.srcHolds f → f.length < 12 → exec .chunkParse s = .next (s.complete .truncated))
    ∧ (s.srcTooLong → exec .chunkParse s = .next (s.complete .bounds))
    ∧ (s.srcUnwritten → exec .chunkParse s = .fault .unwrittenSource)

/-- R104: CHUNK_EMIT writes the frame of STG at DST_ADDR and its length to RES_LEN, and no other cell; under the
invariant of R44 the crc it writes is right. -/
def Obligations.ChunkEmitWritesFrame : Prop :=
  decode 0x00000032 = .command .chunkEmit
  ∧ ∀ s : State,
    (∀ k, s.stg = some k → s.dstFits (12 + k.data.length) →
      ∃ m, m.holdsOver s.dst s.dstAddr.toNat
          (be32bytes (BitVec.ofNat 32 k.data.length) ++ k.type.bytes ++ k.data ++ be32bytes k.crc)
        ∧ exec .chunkEmit s = .next { s with
            dst := m, resLen := BitVec.ofNat 32 (12 + k.data.length)
            errcode := .none, busy := false, done := true })
    ∧ (∀ k, s.stg = some k → ¬ s.dstFits (12 + k.data.length) →
      exec .chunkEmit s = .next (s.complete .bounds))
    ∧ (s.stg = none → exec .chunkEmit s = .next (s.complete .stageEmpty))
    ∧ (s.chunksOk → ∀ k, s.stg = some k → k.crc = crc32 (k.type.bytes ++ k.data))

/-- R105: CHUNK_DATA_OUT copies the data bytes of STG to DST_ADDR. -/
def Obligations.ChunkDataOutCopiesData : Prop :=
  decode 0x00000033 = .command .chunkDataOut
  ∧ ∀ s : State,
    (∀ k, s.stg = some k → s.dstFits k.data.length →
      ∃ m, m.holdsOver s.dst s.dstAddr.toNat k.data
        ∧ exec .chunkDataOut s = .next { s with
            dst := m, resLen := BitVec.ofNat 32 k.data.length
            errcode := .none, busy := false, done := true })
    ∧ (∀ k, s.stg = some k → ¬ s.dstFits k.data.length →
      exec .chunkDataOut s = .next (s.complete .bounds))
    ∧ (s.stg = none → exec .chunkDataOut s = .next (s.complete .stageEmpty))

/-- R110: CONT_CLEAR empties the container; CNT_COUNT and STORE_USED read 0 afterwards. -/
def Obligations.ContClearEmptiesContainer : Prop :=
  decode 0x00000040 = .command .contClear
  ∧ ∀ s : State, ∃ t, exec .contClear s = .next t
    ∧ t = { s with cont := [], errcode := .none, busy := false, done := true }
    ∧ regRead t .cntCount = 0 ∧ regRead t .storeUsed = 0

/-- R109 and R112: CONT_PARSE, the authoritative walk, in the form of what follows the frames it takes: the end,
too few bytes, a frame that does not fit the capacities, a frame with a wrong CRC; a frame that is right and fits
belongs to the run `ks`. -/
def Obligations.ContParseWalksStream : Prop :=
  decode 0x00000041 = .command .contParse
  ∧ ∀ s : State,
    (∀ stream, s.srcHolds stream →
      stream.length < 8 ∨ stream.take 8 ≠ [0x89, 0x50, 0x4E, 0x47, 0x0D, 0x0A, 0x1A, 0x0A] →
      exec .contParse s = .next (s.complete .badSignature))
    ∧ (∀ ks rest, storable s.params ks →
      s.srcHolds ([0x89, 0x50, 0x4E, 0x47, 0x0D, 0x0A, 0x1A, 0x0A] ++ ks.flatMap frame ++ rest) →
      (rest = [] → exec .contParse s = .next { s with
        cont := ks, errcode := .none, busy := false, done := true })
      ∧ (1 ≤ rest.length → rest.length < 4 → exec .contParse s = .next (s.complete .truncated))
      ∧ (4 ≤ rest.length → rest.length < 12 + (be32 rest).toNat →
        exec .contParse s = .next (s.complete .truncated))
      ∧ (∀ (decl : Word) (t : Tag) (d : List Byte) (stored : Word) (more : List Byte),
        rest = be32bytes decl ++ t.bytes ++ d ++ be32bytes stored ++ more →
        d.length = decl.toNat →
        (s.params.maxChunks.toNat < ks.length + 1
            ∨ s.params.storeCap.toNat < dataTotal ks + d.length →
          exec .contParse s = .next (s.complete .capacity))
        ∧ (ks.length + 1 ≤ s.params.maxChunks.toNat →
          dataTotal ks + d.length ≤ s.params.storeCap.toNat → stored ≠ crc32 (t.bytes ++ d) →
          exec .contParse s = .next { s with
            errStored := stored, errComputed := crc32 (t.bytes ++ d)
            errcode := .checksumMismatch, busy := false, done := true })))
    ∧ (s.srcTooLong → exec .contParse s = .next (s.complete .bounds))
    ∧ (s.srcUnwritten → exec .contParse s = .fault .unwrittenSource)

/-- R113: CONT_APPEND appends a copy of STG; the checks in their order are STG, count, store. That the store check takes
the exact sum of the data lengths, where R113 reads the 32-bit STORE_USED, is the model's choice (log 11); the two agree
under `chunksOk`. -/
def Obligations.ContAppendCopiesStage : Prop :=
  decode 0x00000042 = .command .contAppend
  ∧ ∀ s : State,
    (∀ k, s.stg = some k →
      (s.cont.length + 1 ≤ s.params.maxChunks.toNat →
        dataTotal s.cont + k.data.length ≤ s.params.storeCap.toNat →
        exec .contAppend s = .next { s with
          cont := s.cont ++ [k], errcode := .none, busy := false, done := true })
      ∧ (s.params.maxChunks.toNat < s.cont.length + 1
          ∨ s.params.storeCap.toNat < dataTotal s.cont + k.data.length →
        exec .contAppend s = .next (s.complete .capacity)))
    ∧ (s.stg = none → exec .contAppend s = .next (s.complete .stageEmpty))

/-- R114 with R107, R108: CONT_FIND writes the least matching index and FOUND, or 0xFFFFFFFF and clears FOUND;
0xFFFFFFFF is no index of a container within valid capacities. -/
def Obligations.ContFindFirstOfType : Prop :=
  decode 0x00000044 = .command .contFind
  ∧ ∀ s : State,
    (∀ i k, s.firstMatch i k → exec .contFind s = .next { s with
      index := BitVec.ofNat 32 i, found := true, errcode := .none, busy := false, done := true })
    ∧ ((∀ k ∈ s.cont, ¬ s.matchesType k) → exec .contFind s = .next { s with
      index := 0xFFFFFFFF, found := false, errcode := .none, busy := false, done := true })
    ∧ (s.params.valid = true → s.chunksOk → s.cont[(0xFFFFFFFF : Word).toNat]? = none)

/-- R115 with R107, R108: CONT_REMOVE moves the first record of TYPE to STG and its place to INDEX. -/
def Obligations.ContRemoveFirstOfType : Prop :=
  decode 0x00000043 = .command .contRemove
  ∧ ∀ s : State,
    (∀ i k, s.firstMatch i k →
      (k.data.length ≤ s.params.stgCap.toNat → exec .contRemove s = .next { s with
        cont := s.cont.take i ++ s.cont.drop (i + 1), stg := some k
        stgDecl := BitVec.ofNat 32 k.data.length, index := BitVec.ofNat 32 i
        errcode := .none, busy := false, done := true })
      ∧ (s.params.stgCap.toNat < k.data.length →
        exec .contRemove s = .next (s.complete .capacity)))
    ∧ ((∀ k ∈ s.cont, ¬ s.matchesType k) → exec .contRemove s = .next (s.complete .notFound))

/-- R116: CONT_GET copies the record at INDEX to STG. -/
def Obligations.ContGetStagesIndexed : Prop :=
  decode 0x00000045 = .command .contGet
  ∧ ∀ s : State,
    (∀ k, s.cont[s.index.toNat]? = some k →
      (k.data.length ≤ s.params.stgCap.toNat → exec .contGet s = .next { s with
        stg := some k, stgDecl := BitVec.ofNat 32 k.data.length
        errcode := .none, busy := false, done := true })
      ∧ (s.params.stgCap.toNat < k.data.length → exec .contGet s = .next (s.complete .capacity)))
    ∧ (s.cont.length ≤ s.index.toNat → exec .contGet s = .next (s.complete .indexRange))

/-- R117: CONT_EMIT writes the signature and every frame in order at DST_ADDR, and no other cell. -/
def Obligations.ContEmitWritesStream : Prop :=
  decode 0x00000046 = .command .contEmit
  ∧ ∀ s : State,
    (s.dstFits (8 + 12 * s.cont.length + dataTotal s.cont) →
      ∃ m, m.holdsOver s.dst s.dstAddr.toNat
          ([0x89, 0x50, 0x4E, 0x47, 0x0D, 0x0A, 0x1A, 0x0A] ++ s.cont.flatMap (fun k =>
            be32bytes (BitVec.ofNat 32 k.data.length) ++ k.type.bytes ++ k.data
              ++ be32bytes k.crc))
        ∧ exec .contEmit s = .next { s with
            dst := m, resLen := BitVec.ofNat 32 (8 + 12 * s.cont.length + dataTotal s.cont)
            errcode := .none, busy := false, done := true })
    ∧ (¬ s.dstFits (8 + 12 * s.cont.length + dataTotal s.cont) →
      exec .contEmit s = .next (s.complete .bounds))

/-! ### What no command does -/

/-- R46, R122, R142: a command completes, with BUSY cleared and DONE set, or meets the one model fault a command can
meet, and then only where its SRC range fits and holds an unwritten cell (R55). -/
def Obligations.CommandCompletesOrUnwritten : Prop :=
  ∀ (i : Instr) (s : State),
    (∃ t, exec i s = .next t ∧ t.busy = false ∧ t.done = true)
    ∨ (commandReadsSource i = true ∧ s.srcUnwritten ∧ exec i s = .fault .unwrittenSource)

/-- R74: on success a command writes only what its row names; everything else of the block, the source buffer, the
capacities and the host are unchanged. That the word of LATCH is among these for SOFT_RESET too is no word of R74 but
the model's choice (log 10). -/
def Obligations.SuccessWritesOnlyItsRow : Prop :=
  ∀ (i : Instr) (s t : State), exec i s = .next t → t.errcode = .none →
    (∀ c, c ∉ commandWrites i → Component.same s t c)
    ∧ t.params = s.params ∧ t.latch = s.latch ∧ t.src = s.src ∧ t.host = s.host
    ∧ t.resetIn = s.resetIn ∧ t.delay = s.delay ∧ t.issued = s.issued

/-- R14 and R125: a failing command leaves every component as it was but ERRCODE, BUSY, DONE and, for
CHECKSUM_MISMATCH only, the two diagnostic registers. -/
def Obligations.ErrorLeavesEverythingElse : Prop :=
  ∀ (i : Instr) (s t : State), exec i s = .next t → t.errcode ≠ .none →
    t = { s with
      errcode := t.errcode, busy := false, done := true
      errStored := t.errStored, errComputed := t.errComputed }
    ∧ (t.errcode ≠ .checksumMismatch →
        t.errStored = s.errStored ∧ t.errComputed = s.errComputed)

/-- R123 and R124: each command reports success or one of its own errors; and R27 with R123: the number that ERRCODE
reads for each kind the block reports. -/
def Obligations.CommandReportsItsOwnErrors : Prop :=
  (∀ (i : Instr) (s t : State), exec i s = .next t →
    t.errcode = .none ∨ t.errcode ∈ commandRaises i)
  ∧ ∀ s : State,
    (s.errcode = .none → regRead s .errcode = 0x00)
    ∧ (s.errcode = .badSignature → regRead s .errcode = 0x01)
    ∧ (s.errcode = .truncated → regRead s .errcode = 0x02)
    ∧ (s.errcode = .checksumMismatch → regRead s .errcode = 0x03)
    ∧ (s.errcode = .invalidFormat → regRead s .errcode = 0x04)
    ∧ (s.errcode = .notFound → regRead s .errcode = 0x06)
    ∧ (s.errcode = .illegalCommand → regRead s .errcode = 0x09)
    ∧ (s.errcode = .bounds → regRead s .errcode = 0x0A)
    ∧ (s.errcode = .capacity → regRead s .errcode = 0x0B)
    ∧ (s.errcode = .stageEmpty → regRead s .errcode = 0x0C)
    ∧ (s.errcode = .indexRange → regRead s .errcode = 0x0D)

/-- R57: the cells of DST outside the range a command writes read as before, for every command: only the three
emitting ones write, from DST_ADDR on, as many bytes as RES_LEN says. -/
def Obligations.DestinationOutsideRangeKept : Prop :=
  ∀ (i : Instr) (s t : State), exec i s = .next t →
    (i ∉ [.chunkEmit, .chunkDataOut, .contEmit] ∨ t.errcode ≠ .none → t.dst = s.dst)
    ∧ ∀ x, x < s.dstAddr.toNat ∨ s.dstAddr.toNat + t.resLen.toNat ≤ x →
        i ∈ [.chunkEmit, .chunkDataOut, .contEmit] → t.errcode = .none →
        t.dst.read x = s.dst.read x

/-- R54: the block never writes SRC and the host never writes DST, at every step without a reset. -/
def Obligations.EachBufferHasOneWriter : Prop :=
  ∀ s t : State, s.resetLow → step s = .next t →
    (s.sequencerNext → t.src = s.src) ∧ (¬ s.sequencerNext → t.dst = s.dst)

/-- R45: a cell once written stays written until the next reset. -/
def Obligations.WrittenCellsStayWritten : Prop :=
  ∀ s t : State, s.resetLow → step s = .next t →
    ∀ x, ((s.src.read x).isSome → (t.src.read x).isSome)
      ∧ ((s.dst.read x).isSome → (t.dst.read x).isSome)

/-- R18: the result of a command is a function of the capacities, the registers, STG, CONT and the SRC range it
reads (R74): two states that agree on these give the same fault, or the same error code, the same diagnostics and
the same written components and bytes. -/
def Obligations.ResultDependsOnlyOnWhatIsRead : Prop :=
  ∀ (i : Instr) (s s' : State), commandAgree i s s' →
    (∀ f, exec i s = .fault f → exec i s' = .fault f)
    ∧ ∀ t, exec i s = .next t → ∃ t', exec i s' = .next t' ∧ t'.errcode = t.errcode
      ∧ (t.errcode = .checksumMismatch →
          t'.errStored = t.errStored ∧ t'.errComputed = t.errComputed)
      ∧ (t.errcode = .none →
          (∀ c ∈ commandWrites i, c ≠ .dst → Component.same t t' c)
          ∧ (.dst ∈ commandWrites i → ∀ j, j < t.resLen.toNat →
              t'.dst.read (s'.dstAddr.toNat + j) = t.dst.read (s.dstAddr.toNat + j)))

/-- R41: only the hardware reset and SOFT_RESET make STG empty. -/
def Obligations.OnlyResetsEmptyStage : Prop :=
  ∀ s t : State, s.stg ≠ none → step s = .next t → t.stg = none →
    ¬ s.resetLow ∨ (s.sequencerNext ∧ decode s.latch = .command .softReset)

/-- Without a hardware reset, TYPE changes only by the host's write to it and by TYPE_FROM_STR (R91), CONT only by its
four writers (R43), CRC_STATE only by the engine's three commands (R33, R74), the diagnostic registers only by
CHECKSUM_MISMATCH (R36, R126); and each by SOFT_RESET (R120). -/
def Obligations.ComponentsChangeOnlyByTheirWriters : Prop :=
  ∀ s t : State, s.resetLow → step s = .next t →
    (t.typeReg ≠ s.typeReg →
      s.hostNext (.access (.regWrite 0x1C t.typeReg))
      ∨ (s.sequencerNext ∧ decode s.latch ∈ [.command .typeFromStr, .command .softReset]))
    ∧ (t.cont ≠ s.cont → s.sequencerNext
      ∧ decode s.latch ∈ [.command .contClear, .command .contParse, .command .contAppend,
          .command .contRemove, .command .softReset])
    ∧ (t.crcState ≠ s.crcState → s.sequencerNext
      ∧ decode s.latch ∈ [.command .crcInit, .command .crcByte, .command .crcBuf, .command .softReset])
    ∧ (t.errStored ≠ s.errStored ∨ t.errComputed ≠ s.errComputed → s.sequencerNext
      ∧ (t.errcode = .checksumMismatch ∨ decode s.latch = .command .softReset))

/-! ### Invariants -/

/-- Every invariant below holds after reset, for any capacities (R48). -/
def Obligations.ResetMeetsInvariants : Prop :=
  ∀ p : Params, (State.resetWith p).chunksOk ∧ (State.resetWith p).buffersOk
    ∧ (State.resetWith p).handshakeOk ∧ (State.resetWith p).errcode.used = true

/-- R44 and R41: every step keeps the count, the data total, the CRC of every record and the size of STG. -/
def Obligations.EveryStepKeepsChunkInvariants : Prop :=
  ∀ s t : State, s.chunksOk → step s = .next t → t.chunksOk

/-- R45: every step keeps both buffers in canonical form with all cells inside. -/
def Obligations.EveryStepKeepsBufferForm : Prop :=
  ∀ s t : State, s.buffersOk → step s = .next t → t.buffersOk

/-- R26: BUSY and DONE are never both 1, after any step. -/
def Obligations.BusyAndDoneNeverTogether : Prop :=
  ∀ s t : State, s.handshakeOk → step s = .next t → t.handshakeOk

/-- R123: the codes 0x05, 0x07, 0x08 and everything above 0x0D are never written. -/
def Obligations.UnusedCodesNeverAppear : Prop :=
  ∀ s t : State, s.errcode.used = true → step s = .next t →
    t.errcode.used = true
    ∧ regRead t .errcode ∉ [0x05, 0x07, 0x08] ∧ (regRead t .errcode).toNat ≤ 0x0D

/-- R38: the CAP registers read the capacities, which are constant for a given block. -/
def Obligations.CapacitiesNeverChange : Prop :=
  ∀ s t : State, step s = .next t → t.params = s.params
    ∧ regRead t .capChunks = s.params.maxChunks ∧ regRead t .capStore = s.params.storeCap
    ∧ regRead t .capStg = s.params.stgCap ∧ regRead t .capSrc = s.params.srcSize
    ∧ regRead t .capDst = s.params.dstSize

/-! ### Laws -/

/-- R84: the table form, with `TBL[i] = crc_step(0, i)`, computes the same function; the rule's six entries. -/
def Obligations.CrcTableFormAgrees : Prop :=
  (∀ (c : Word) (b : Byte),
    crcStep c b = crcStep 0 ((c ^^^ b.setWidth 32).extractLsb' 0 8) ^^^ c >>> 8
    ∧ crcStep c b = crcStepTable c b)
  ∧ crcStep 0 0x00 = 0x00000000 ∧ crcStep 0 0x01 = 0x77073096 ∧ crcStep 0 0x02 = 0xEE0E612C
  ∧ crcStep 0 0x80 = 0xEDB88320 ∧ crcStep 0 0x96 = 0x196C3671 ∧ crcStep 0 0xFF = 0x2D02EF8D

/-- R86, law 1: feeding `x` and then `y` to the engine leaves the CRC_STATE of feeding `x ++ y` at once. -/
def Obligations.CrcBufStreams : Prop :=
  ∀ (s t u : State) (x y : List Byte) (a n : Word), s.srcHolds x → exec .crcBuf s = .next t →
    State.srcHolds { t with argAddr := a, argLen := n } y →
    u.crcState = s.crcState → u.srcHolds (x ++ y) →
    ∃ t₂ u₂, exec .crcBuf { t with argAddr := a, argLen := n } = .next t₂
      ∧ exec .crcBuf u = .next u₂ ∧ t₂.crcState = u₂.crcState

/-- R86, law 2: flipping any one bit of a byte sequence changes its crc32. -/
def Obligations.CrcDetectsEverySingleBitFlip : Prop :=
  ∀ (pre post : List Byte) (b : Byte) (i : Nat), i < 8 →
    crc32 (pre ++ (b ^^^ BitVec.twoPow 8 i) :: post) ≠ crc32 (pre ++ b :: post)

/-- R106, laws 1 and 2: a frame CHUNK_EMIT wrote, copied to SRC, is parsed to the same record; and a frame whose
declared length is right is emitted again byte for byte. -/
def Obligations.ChunkFrameRoundTrip : Prop :=
  (∀ (s t u : State) (k : Chunk), s.chunksOk → s.stg = some k → exec .chunkEmit s = .next t →
    t.errcode = .none → u.params = s.params → u.argLen = t.resLen →
    u.argAddr.toNat + u.argLen.toNat ≤ u.params.srcSize.toNat →
    (∀ j, j < u.argLen.toNat →
      u.src.read (u.argAddr.toNat + j) = t.dst.read (s.dstAddr.toNat + j)) →
    exec .chunkParse u = .next { u with
      stg := some k, stgDecl := BitVec.ofNat 32 k.data.length
      errcode := .none, busy := false, done := true })
  ∧ (∀ (s t t' : State) (f : List Byte), s.srcHolds f → (be32 f).toNat = f.length - 12 →
    exec .chunkParse s = .next t → t.errcode = .none →
    exec .chunkEmit t = .next t' → t'.errcode = .none →
    t'.resLen.toNat = f.length ∧ t'.dst.holdsOver s.dst s.dstAddr.toNat f)

/-- R118, law 1: the stream CONT_EMIT wrote, copied to SRC, is parsed to the same container. -/
def Obligations.ContainerRoundTrip : Prop :=
  ∀ s t u : State, s.chunksOk → exec .contEmit s = .next t → t.errcode = .none →
    u.params = s.params → u.argLen = t.resLen →
    u.argAddr.toNat + u.argLen.toNat ≤ u.params.srcSize.toNat →
    (∀ j, j < u.argLen.toNat →
      u.src.read (u.argAddr.toNat + j) = t.dst.read (s.dstAddr.toNat + j)) →
    exec .contParse u = .next { u with
      cont := s.cont, errcode := .none, busy := false, done := true }

/-- R118, law 2: if CONT_PARSE of a stream succeeds, CONT_EMIT writes exactly that stream. -/
def Obligations.ParsedContainerEmitsItsStream : Prop :=
  ∀ (s t t' : State) (stream : List Byte), s.srcHolds stream → exec .contParse s = .next t →
    t.errcode = .none → exec .contEmit t = .next t' → t'.errcode = .none →
    t'.resLen.toNat = stream.length ∧ t'.dst.holdsOver s.dst s.dstAddr.toNat stream

/-- R118, law 3: where no record of its type is in the container, an appended record is found at the end, removed
into STG, and then not found. -/
def Obligations.AppendedRecordIsFoundAndRemoved : Prop :=
  ∀ (s : State) (k : Chunk), s.stg = some k → s.typeReg = k.type.toWord →
    (∀ l ∈ s.cont, l.type ≠ k.type) → s.cont.length + 1 ≤ s.params.maxChunks.toNat →
    dataTotal s.cont + k.data.length ≤ s.params.storeCap.toNat →
    k.data.length ≤ s.params.stgCap.toNat →
    ∃ a f r g, exec .contAppend s = .next a ∧ exec .contFind a = .next f
      ∧ f.found = true ∧ f.index = BitVec.ofNat 32 s.cont.length
      ∧ exec .contRemove f = .next r ∧ r.errcode = .none ∧ r.stg = some k ∧ r.cont = s.cont
      ∧ exec .contFind r = .next g ∧ g.found = false ∧ g.index = 0xFFFFFFFF

/-- R143 with R65: a WAIT ends. From a host that begins a WAIT while BUSY = 1, with no reset to come, the machine
reaches BUSY = 0 with the host past the WAIT, within the turns the free value left and four more steps, unless the
command meets its model fault. -/
def Obligations.EveryWaitEnds : Prop :=
  ∀ (s : State) (p : Nat), s.resetIn = [] → s.busy = true → s.host.pos = p →
    s.host.prog[p]? = some (.access .readStatus) → s.host.prog[p + 1]? = some (.bnz 0x1 p) →
    (∃ n t, n ≤ s.delay + 4 ∧ Sys2Proof.core.run n s = .next t
      ∧ t.busy = false ∧ t.host.pos = p + 2)
    ∨ Sys2Proof.core.run (s.delay + 1) s = .fault .unwrittenSource
end

