-- ==== Sys2Proof/Laws/Bytes.lean ====
section
/-! SUPPORT. Byte order, tags, frames and streams. -/

namespace Sys2Proof.Machine

/-- A bit of a packed word, by the byte it lies in. -/
theorem getLsbD_word32 (b0 b1 b2 b3 : Byte) (i : Nat) (hi : i < 32) :
    (word32 b0 b1 b2 b3).getLsbD i =
      if i < 8 then b3.getLsbD i
      else if i < 16 then b2.getLsbD (i - 8)
      else if i < 24 then b1.getLsbD (i - 16)
      else b0.getLsbD (i - 24) := by
  have h0 : ∀ (b : Byte) (j : Nat), 8 ≤ j → b.getLsbD j = false :=
    fun b j hj => BitVec.getLsbD_of_ge b j hj
  unfold word32
  simp only [BitVec.getLsbD_or, BitVec.getLsbD_shiftLeft, BitVec.getLsbD_setWidth, hi, decide_true,
    Bool.true_and]
  split
  · simp [show i < 24 by omega, show i < 16 by omega, *]
  · split
    · simp [show i < 24 by omega, show i < 16 by omega, show ¬ i < 8 by omega,
        h0 b3 i (by omega), show i - 8 < 32 by omega]
    · split
      · simp [show ¬ i < 16 by omega, show ¬ i < 8 by omega, show i < 24 by omega,
          h0 b3 i (by omega), h0 b2 (i - 8) (by omega), show i - 16 < 32 by omega]
      · simp [show ¬ i < 24 by omega, show ¬ i < 16 by omega, show ¬ i < 8 by omega,
          h0 b3 i (by omega), h0 b2 (i - 8) (by omega), h0 b1 (i - 16) (by omega),
          show i - 24 < 32 by omega]

theorem word32_extract (v : Word) :
    word32 (v.extractLsb' 24 8) (v.extractLsb' 16 8) (v.extractLsb' 8 8) (v.extractLsb' 0 8) = v := by
  apply BitVec.eq_of_getLsbD_eq
  intro i hi
  rw [getLsbD_word32 _ _ _ _ i hi]
  simp only [BitVec.getLsbD_extractLsb']
  split
  · simp [*]
  · split
    · simp [show i - 8 < 8 by omega, show 8 + (i - 8) = i by omega]
    · split
      · simp [show i - 16 < 8 by omega, show 16 + (i - 16) = i by omega]
      · simp [show i - 24 < 8 by omega, show 24 + (i - 24) = i by omega]

theorem extract_word32_0 (b0 b1 b2 b3 : Byte) : (word32 b0 b1 b2 b3).extractLsb' 24 8 = b0 := by
  apply BitVec.eq_of_getLsbD_eq
  intro i hi
  rw [BitVec.getLsbD_extractLsb', getLsbD_word32 _ _ _ _ _ (by omega)]
  simp [hi, show ¬ 24 + i < 8 by omega, show ¬ 24 + i < 16 by omega, show ¬ 24 + i < 24 by omega]

theorem extract_word32_1 (b0 b1 b2 b3 : Byte) : (word32 b0 b1 b2 b3).extractLsb' 16 8 = b1 := by
  apply BitVec.eq_of_getLsbD_eq
  intro i hi
  rw [BitVec.getLsbD_extractLsb', getLsbD_word32 _ _ _ _ _ (by omega)]
  simp [hi, show ¬ 16 + i < 8 by omega, show ¬ 16 + i < 16 by omega, show 16 + i < 24 by omega]

theorem extract_word32_2 (b0 b1 b2 b3 : Byte) : (word32 b0 b1 b2 b3).extractLsb' 8 8 = b2 := by
  apply BitVec.eq_of_getLsbD_eq
  intro i hi
  rw [BitVec.getLsbD_extractLsb', getLsbD_word32 _ _ _ _ _ (by omega)]
  simp [hi, show ¬ 8 + i < 8 by omega, show 8 + i < 16 by omega]

theorem extract_word32_3 (b0 b1 b2 b3 : Byte) : (word32 b0 b1 b2 b3).extractLsb' 0 8 = b3 := by
  apply BitVec.eq_of_getLsbD_eq
  intro i hi
  rw [BitVec.getLsbD_extractLsb', getLsbD_word32 _ _ _ _ _ (by omega)]
  simp [hi]

@[simp] theorem be32bytes_length (v : Word) : (be32bytes v).length = 4 := rfl

@[simp] theorem tag_bytes_length (t : Tag) : t.bytes.length = 4 := rfl

/-- `be32` undoes `be32bytes`, whatever follows. -/
@[simp] theorem be32_be32bytes_append (v : Word) (s : List Byte) : be32 (be32bytes v ++ s) = v :=
  word32_extract v

@[simp] theorem be32_be32bytes (v : Word) : be32 (be32bytes v) = v := word32_extract v

/-- A list of four bytes is `be32bytes` of its value. -/
theorem be32bytes_be32 {s : List Byte} (h : s.length = 4) : be32bytes (be32 s) = s := by
  match s, h with
  | [b0, b1, b2, b3], _ =>
    simp [be32, be32bytes, extract_word32_0, extract_word32_1, extract_word32_2, extract_word32_3]

@[simp] theorem Tag.ofBytes_bytes_append (t : Tag) (s : List Byte) :
    Tag.ofBytes (t.bytes ++ s) = t := rfl

@[simp] theorem Tag.ofBytes_bytes (t : Tag) : Tag.ofBytes t.bytes = t := rfl

theorem Tag.bytes_ofBytes {s : List Byte} (h : s.length = 4) : (Tag.ofBytes s).bytes = s := by
  match s, h with
  | [_, _, _, _], _ => rfl

@[simp] theorem Tag.toWord_ofWord (w : Word) : (Tag.ofWord w).toWord = w := word32_extract w

@[simp] theorem Tag.ofWord_toWord (t : Tag) : Tag.ofWord t.toWord = t := by
  obtain ⟨b0, b1, b2, b3⟩ := t
  simp [Tag.ofWord, Tag.ofBytes, Tag.toWord, be32bytes, extract_word32_0, extract_word32_1,
    extract_word32_2, extract_word32_3]

/-- A tag is the one a register holds exactly when the register holds it packed. -/
theorem Tag.eq_ofWord_iff (t : Tag) (w : Word) : t = Tag.ofWord w ↔ t.toWord = w :=
  ⟨fun h => by simp [h], fun h => by simp [← h]⟩

@[simp] theorem frame_length (k : Chunk) : (frame k).length = 12 + k.data.length := by
  simp [frame]
  omega

@[simp] theorem dataTotal_nil : dataTotal [] = 0 := rfl

@[simp] theorem dataTotal_cons (k : Chunk) (ks : List Chunk) :
    dataTotal (k :: ks) = k.data.length + dataTotal ks := by
  simp [dataTotal]

@[simp] theorem dataTotal_append (ks ls : List Chunk) :
    dataTotal (ks ++ ls) = dataTotal ks + dataTotal ls := by
  simp [dataTotal]

theorem data_length_le_dataTotal {k : Chunk} {ks : List Chunk} (h : k ∈ ks) :
    k.data.length ≤ dataTotal ks := by
  induction ks with
  | nil => simp at h
  | cons l ks ih =>
    rw [dataTotal_cons]
    rcases List.mem_cons.1 h with rfl | h
    · omega
    · have := ih h
      omega

/-- Removing a record takes away its data bytes. -/
theorem dataTotal_eraseIdx {ks : List Chunk} {i : Nat} {k : Chunk} (h : ks[i]? = some k) :
    dataTotal (ks.eraseIdx i) + k.data.length = dataTotal ks := by
  induction ks generalizing i with
  | nil => simp at h
  | cons l ks ih =>
    cases i with
    | zero =>
      simp only [List.getElem?_cons_zero, Option.some.injEq] at h
      subst h
      simp only [List.eraseIdx_zero, List.tail_cons, dataTotal_cons]
      omega
    | succ i =>
      simp only [List.getElem?_cons_succ] at h
      simp only [List.eraseIdx_cons_succ, dataTotal_cons]
      have := ih h
      omega

@[simp] theorem signature_length : signature.length = 8 := rfl

/-- The length of a run of frames. -/
theorem frames_length (ks : List Chunk) :
    (ks.flatMap frame).length = 12 * ks.length + dataTotal ks := by
  induction ks with
  | nil => rfl
  | cons k ks ih =>
    rw [List.flatMap_cons, List.length_append, frame_length, ih, dataTotal_cons, List.length_cons]
    omega

/-- The length of a container stream (43 R117). -/
theorem containerStream_length (ks : List Chunk) :
    (containerStream ks).length = 8 + 12 * ks.length + dataTotal ks := by
  rw [containerStream, List.length_append, frames_length, signature_length]
  omega

/-- The SIG registers hold the signature (10 R37). -/
theorem signature_eq_registers : be32bytes sigHi ++ be32bytes sigLo = signature := by decide

end Sys2Proof.Machine
end

