-- ==== Sys2Proof/Laws/Memory.lean ====
section
/-! SUPPORT. The buffers: a read after a write, the canonical form, ranges. -/

namespace Sys2Proof.Machine

@[simp] theorem Memory.read_nil (a : Nat) : Memory.read [] a = none := rfl

theorem Memory.read_cons (x : Nat) (b : Byte) (m : Memory) (a : Nat) :
    Memory.read ((x, b) :: m) a = if a = x then some b else Memory.read m a := rfl

/-- A cell below every listed one is unwritten. -/
theorem Memory.read_eq_none {m : Memory} {a : Nat} (h : ∀ c ∈ m, a < c.1) : m.read a = none := by
  induction m with
  | nil => rfl
  | cons c m ih =>
    obtain ⟨x, b⟩ := c
    have hx : a < x := h (x, b) (by simp)
    rw [Memory.read_cons, if_neg (by omega)]
    exact ih fun c hc => h c (by simp [hc])

/-- A written cell is listed. -/
theorem Memory.mem_of_read {m : Memory} {a : Nat} {b : Byte} (h : m.read a = some b) :
    (a, b) ∈ m := by
  induction m with
  | nil => simp at h
  | cons c m ih =>
    obtain ⟨x, y⟩ := c
    rw [Memory.read_cons] at h
    split at h
    · simp_all
    · exact List.mem_cons_of_mem _ (ih h)

/-- The cell just written reads as written. -/
@[simp] theorem Memory.read_write_same (m : Memory) (a : Nat) (b : Byte) :
    (m.write a b).read a = some b := by
  induction m with
  | nil => simp [Memory.write, Memory.read]
  | cons c m ih =>
    obtain ⟨x, y⟩ := c
    rw [Memory.write]
    split
    · simp [Memory.read]
    · split
      · simp [Memory.read]
      · rw [Memory.read_cons, if_neg ‹_›, ih]

/-- Every other cell is as before. -/
theorem Memory.read_write_other (m : Memory) {a x : Nat} (b : Byte) (h : x ≠ a) :
    (m.write a b).read x = m.read x := by
  induction m with
  | nil => simp [Memory.write, Memory.read, h]
  | cons c m ih =>
    obtain ⟨y, z⟩ := c
    rw [Memory.write]
    split
    · simp [Memory.read, h]
    · split
      · subst_vars
        simp [Memory.read, h]
      · simp only [Memory.read_cons, ih]

/-- A listed cell of the buffer after a write is the one written or was listed before. -/
theorem Memory.mem_write {m : Memory} {a : Nat} {b : Byte} {c : Host.Cell} (h : c ∈ m.write a b) :
    c = (a, b) ∨ c ∈ m := by
  induction m with
  | nil => simpa [Memory.write] using h
  | cons d m ih =>
    obtain ⟨x, y⟩ := d
    rw [Memory.write] at h
    split at h
    · simpa using h
    · split at h
      · rcases List.mem_cons.1 h with h | h
        · exact .inl h
        · exact .inr (List.mem_cons_of_mem _ h)
      · rcases List.mem_cons.1 h with h | h
        · exact .inr (by simp [h])
        · exact (ih h).imp_right (List.mem_cons_of_mem _)

/-- A write keeps the canonical form. -/
theorem Memory.wf_write {m : Memory} (h : m.wf) (a : Nat) (b : Byte) : (m.write a b).wf := by
  induction m with
  | nil => simp [Memory.write]
  | cons c m ih =>
    obtain ⟨x, y⟩ := c
    have hc := List.pairwise_cons.1 h
    rw [Memory.write]
    split
    · refine List.pairwise_cons.2 ⟨fun d hd => ?_, h⟩
      rcases List.mem_cons.1 hd with rfl | hd
      · assumption
      · exact Nat.lt_trans ‹a < x› (hc.1 d hd)
    · split
      · subst_vars
        exact List.pairwise_cons.2 hc
      · refine List.pairwise_cons.2 ⟨fun d hd => ?_, ih hc.2⟩
        rcases Memory.mem_write hd with rfl | hd
        · show x < a
          omega
        · exact hc.1 d hd

/-- A write inside the buffer keeps its cells inside. -/
theorem Memory.within_write {m : Memory} {n : Word} (h : m.within n) {a : Nat} (ha : a < n.toNat)
    (b : Byte) : (m.write a b).within n := fun c hc => by
  rcases Memory.mem_write hc with rfl | hc
  · exact ha
  · exact h c hc

/-- A written cell stays written under a write. -/
theorem Memory.isSome_read_write {m : Memory} {x : Nat} (h : (m.read x).isSome) (a : Nat)
    (b : Byte) : ((m.write a b).read x).isSome := by
  by_cases hx : x = a
  · simp [hx]
  · rwa [Memory.read_write_other m b hx]

@[simp] theorem Memory.writeRange_nil (m : Memory) (a : Nat) : m.writeRange a [] = m := rfl

theorem Memory.writeRange_cons (m : Memory) (a : Nat) (b : Byte) (s : List Byte) :
    m.writeRange a (b :: s) = (m.write a b).writeRange (a + 1) s := rfl

theorem Memory.wf_writeRange {m : Memory} (h : m.wf) (a : Nat) (s : List Byte) :
    (m.writeRange a s).wf := by
  induction s generalizing m a with
  | nil => exact h
  | cons b s ih => exact ih (Memory.wf_write h a b) (a + 1)

theorem Memory.within_writeRange {m : Memory} {n : Word} (h : m.within n) {a : Nat}
    {s : List Byte} (ha : a + s.length ≤ n.toNat) : (m.writeRange a s).within n := by
  induction s generalizing m a with
  | nil => exact h
  | cons b s ih =>
    rw [List.length_cons] at ha
    exact ih (Memory.within_write h (by omega) b) (by omega)

/-- Cells outside a written range are as before. -/
theorem Memory.read_writeRange_outside (m : Memory) {a x : Nat} {s : List Byte}
    (h : x < a ∨ a + s.length ≤ x) : (m.writeRange a s).read x = m.read x := by
  induction s generalizing m a with
  | nil => rfl
  | cons b s ih =>
    rw [List.length_cons] at h
    rw [Memory.writeRange_cons, ih _ (by omega), Memory.read_write_other _ _ (by omega)]

/-- The cells of a written range hold its bytes. -/
theorem Memory.read_writeRange_inside (m : Memory) (a : Nat) {s : List Byte} {j : Nat}
    (h : j < s.length) : (m.writeRange a s).read (a + j) = s[j]? := by
  induction s generalizing m a j with
  | nil => simp at h
  | cons b s ih =>
    rw [Memory.writeRange_cons]
    cases j with
    | zero =>
      rw [Memory.read_writeRange_outside _ (by omega)]
      simp
    | succ j =>
      rw [List.length_cons] at h
      rw [show a + (j + 1) = a + 1 + j by omega, ih _ _ (by omega)]
      simp

/-- What `writeRange` does to every cell. -/
theorem Memory.writeRange_holdsOver (m : Memory) (a : Nat) (s : List Byte) :
    (m.writeRange a s).holdsOver m a s :=
  ⟨fun _ h => Memory.read_writeRange_inside m a h, fun _ h => Memory.read_writeRange_outside m h⟩

/-- A written cell stays written under a range of writes. -/
theorem Memory.isSome_read_writeRange {m : Memory} {x : Nat} (h : (m.read x).isSome) (a : Nat)
    (s : List Byte) : ((m.writeRange a s).read x).isSome := by
  induction s generalizing m a with
  | nil => exact h
  | cons b s ih => exact ih (Memory.isSome_read_write h a b) (a + 1)

/-- `readRange` answers `bs` exactly when the cells hold the bytes of `bs`. -/
theorem Memory.readRange_eq_some {m : Memory} {a n : Nat} {bs : List Byte} :
    m.readRange a n = some bs ↔ bs.length = n ∧ ∀ j, j < n → m.read (a + j) = bs[j]? := by
  induction n generalizing a bs with
  | zero =>
    rw [Memory.readRange]
    constructor
    · intro h
      simp_all
    · rintro ⟨h, -⟩
      rw [List.length_eq_zero_iff.1 h]
  | succ n ih =>
    rw [Memory.readRange]
    constructor
    · intro h
      split at h
      · simp at h
      · rename_i b hb
        obtain ⟨t, ht, rfl⟩ := Option.map_eq_some_iff.1 h
        obtain ⟨hl, hr⟩ := ih.1 ht
        refine ⟨by simp [hl], fun j hj => ?_⟩
        cases j with
        | zero => simpa using hb
        | succ j => simpa [Nat.add_assoc, Nat.add_comm 1] using hr j (by omega)
    · rintro ⟨hl, hr⟩
      cases bs with
      | nil => simp at hl
      | cons b bs =>
        have h0 : m.read a = some b := by simpa using hr 0 (by omega)
        have ht : m.readRange (a + 1) n = some bs := ih.2
          ⟨by simpa using hl, fun j hj => by
            simpa [Nat.add_assoc, Nat.add_comm 1] using hr (j + 1) (by omega)⟩
        rw [h0]
        simp [ht]

/-- `readRange` answers nothing exactly when a cell of the range is unwritten. -/
theorem Memory.readRange_eq_none {m : Memory} {a n : Nat} :
    m.readRange a n = none ↔ ∃ j, j < n ∧ m.read (a + j) = none := by
  induction n generalizing a with
  | zero => simp [Memory.readRange]
  | succ n ih =>
    rw [Memory.readRange]
    cases hb : m.read a with
    | none => simpa using ⟨0, by omega, by simpa using hb⟩
    | some b =>
      simp only [Option.map_eq_none_iff, ih]
      constructor
      · rintro ⟨j, hj, h⟩
        exact ⟨j + 1, by omega, by simpa [Nat.add_assoc, Nat.add_comm 1] using h⟩
      · rintro ⟨j, hj, h⟩
        cases j with
        | zero => simp [hb] at h
        | succ j => exact ⟨j, by omega, by simpa [Nat.add_assoc, Nat.add_comm 1] using h⟩

/-- `readRange` looks only at the cells of its range. -/
theorem Memory.readRange_congr {m m' : Memory} {a n : Nat}
    (h : ∀ j, j < n → m.read (a + j) = m'.read (a + j)) : m.readRange a n = m'.readRange a n := by
  induction n generalizing a with
  | zero => rfl
  | succ n ih =>
    rw [Memory.readRange, Memory.readRange, show m.read a = m'.read a from h 0 (by omega),
      ih fun j hj => by simpa [Nat.add_assoc, Nat.add_comm 1] using h (j + 1) (by omega)]

end Sys2Proof.Machine
end

