-- ==== Sys2Proof/Laws/State.lean ====
section
/-! SUPPORT. What each named update of the state does to each field. -/

namespace Sys2Proof.Machine

section
variable (s : State) (e : ErrCode)

@[simp] theorem State.complete_params : (s.complete e).params = s.params := rfl
@[simp] theorem State.complete_cmd : (s.complete e).cmd = s.cmd := rfl
@[simp] theorem State.complete_argAddr : (s.complete e).argAddr = s.argAddr := rfl
@[simp] theorem State.complete_argLen : (s.complete e).argLen = s.argLen := rfl
@[simp] theorem State.complete_dstAddr : (s.complete e).dstAddr = s.dstAddr := rfl
@[simp] theorem State.complete_typeReg : (s.complete e).typeReg = s.typeReg := rfl
@[simp] theorem State.complete_index : (s.complete e).index = s.index := rfl
@[simp] theorem State.complete_resLen : (s.complete e).resLen = s.resLen := rfl
@[simp] theorem State.complete_crcIn : (s.complete e).crcIn = s.crcIn := rfl
@[simp] theorem State.complete_crcState : (s.complete e).crcState = s.crcState := rfl
@[simp] theorem State.complete_errcode : (s.complete e).errcode = e := rfl
@[simp] theorem State.complete_errStored : (s.complete e).errStored = s.errStored := rfl
@[simp] theorem State.complete_errComputed : (s.complete e).errComputed = s.errComputed := rfl
@[simp] theorem State.complete_busy : (s.complete e).busy = false := rfl
@[simp] theorem State.complete_done : (s.complete e).done = true := rfl
@[simp] theorem State.complete_found : (s.complete e).found = s.found := rfl
@[simp] theorem State.complete_latch : (s.complete e).latch = s.latch := rfl
@[simp] theorem State.complete_stg : (s.complete e).stg = s.stg := rfl
@[simp] theorem State.complete_stgDecl : (s.complete e).stgDecl = s.stgDecl := rfl
@[simp] theorem State.complete_cont : (s.complete e).cont = s.cont := rfl
@[simp] theorem State.complete_src : (s.complete e).src = s.src := rfl
@[simp] theorem State.complete_dst : (s.complete e).dst = s.dst := rfl
@[simp] theorem State.complete_host : (s.complete e).host = s.host := rfl
@[simp] theorem State.complete_resetIn : (s.complete e).resetIn = s.resetIn := rfl
@[simp] theorem State.complete_delay : (s.complete e).delay = s.delay := rfl
@[simp] theorem State.complete_issued : (s.complete e).issued = s.issued := rfl

end

section
variable (s : State) (k : Chunk) (d : Word)

@[simp] theorem State.loadStg_params : (s.loadStg k d).params = s.params := rfl
@[simp] theorem State.loadStg_cmd : (s.loadStg k d).cmd = s.cmd := rfl
@[simp] theorem State.loadStg_argAddr : (s.loadStg k d).argAddr = s.argAddr := rfl
@[simp] theorem State.loadStg_argLen : (s.loadStg k d).argLen = s.argLen := rfl
@[simp] theorem State.loadStg_dstAddr : (s.loadStg k d).dstAddr = s.dstAddr := rfl
@[simp] theorem State.loadStg_typeReg : (s.loadStg k d).typeReg = s.typeReg := rfl
@[simp] theorem State.loadStg_index : (s.loadStg k d).index = s.index := rfl
@[simp] theorem State.loadStg_resLen : (s.loadStg k d).resLen = s.resLen := rfl
@[simp] theorem State.loadStg_crcIn : (s.loadStg k d).crcIn = s.crcIn := rfl
@[simp] theorem State.loadStg_crcState : (s.loadStg k d).crcState = s.crcState := rfl
@[simp] theorem State.loadStg_errcode : (s.loadStg k d).errcode = s.errcode := rfl
@[simp] theorem State.loadStg_errStored : (s.loadStg k d).errStored = s.errStored := rfl
@[simp] theorem State.loadStg_errComputed : (s.loadStg k d).errComputed = s.errComputed := rfl
@[simp] theorem State.loadStg_busy : (s.loadStg k d).busy = s.busy := rfl
@[simp] theorem State.loadStg_done : (s.loadStg k d).done = s.done := rfl
@[simp] theorem State.loadStg_found : (s.loadStg k d).found = s.found := rfl
@[simp] theorem State.loadStg_latch : (s.loadStg k d).latch = s.latch := rfl
@[simp] theorem State.loadStg_stg : (s.loadStg k d).stg = some k := rfl
@[simp] theorem State.loadStg_stgDecl : (s.loadStg k d).stgDecl = d := rfl
@[simp] theorem State.loadStg_cont : (s.loadStg k d).cont = s.cont := rfl
@[simp] theorem State.loadStg_src : (s.loadStg k d).src = s.src := rfl
@[simp] theorem State.loadStg_dst : (s.loadStg k d).dst = s.dst := rfl
@[simp] theorem State.loadStg_host : (s.loadStg k d).host = s.host := rfl
@[simp] theorem State.loadStg_resetIn : (s.loadStg k d).resetIn = s.resetIn := rfl
@[simp] theorem State.loadStg_delay : (s.loadStg k d).delay = s.delay := rfl
@[simp] theorem State.loadStg_issued : (s.loadStg k d).issued = s.issued := rfl

end

section
variable (s : State) (w : Word)

@[simp] theorem State.writeCmd_params : (s.writeCmd w).params = s.params := rfl
@[simp] theorem State.writeCmd_cmd : (s.writeCmd w).cmd = w := rfl
@[simp] theorem State.writeCmd_argAddr : (s.writeCmd w).argAddr = s.argAddr := rfl
@[simp] theorem State.writeCmd_argLen : (s.writeCmd w).argLen = s.argLen := rfl
@[simp] theorem State.writeCmd_dstAddr : (s.writeCmd w).dstAddr = s.dstAddr := rfl
@[simp] theorem State.writeCmd_typeReg : (s.writeCmd w).typeReg = s.typeReg := rfl
@[simp] theorem State.writeCmd_index : (s.writeCmd w).index = s.index := rfl
@[simp] theorem State.writeCmd_resLen : (s.writeCmd w).resLen = s.resLen := rfl
@[simp] theorem State.writeCmd_crcIn : (s.writeCmd w).crcIn = s.crcIn := rfl
@[simp] theorem State.writeCmd_crcState : (s.writeCmd w).crcState = s.crcState := rfl
@[simp] theorem State.writeCmd_errcode : (s.writeCmd w).errcode = s.errcode := rfl
@[simp] theorem State.writeCmd_errStored : (s.writeCmd w).errStored = s.errStored := rfl
@[simp] theorem State.writeCmd_errComputed : (s.writeCmd w).errComputed = s.errComputed := rfl
@[simp] theorem State.writeCmd_busy : (s.writeCmd w).busy = true := rfl
@[simp] theorem State.writeCmd_done : (s.writeCmd w).done = false := rfl
@[simp] theorem State.writeCmd_found : (s.writeCmd w).found = s.found := rfl
@[simp] theorem State.writeCmd_latch : (s.writeCmd w).latch = w := rfl
@[simp] theorem State.writeCmd_stg : (s.writeCmd w).stg = s.stg := rfl
@[simp] theorem State.writeCmd_stgDecl : (s.writeCmd w).stgDecl = s.stgDecl := rfl
@[simp] theorem State.writeCmd_cont : (s.writeCmd w).cont = s.cont := rfl
@[simp] theorem State.writeCmd_src : (s.writeCmd w).src = s.src := rfl
@[simp] theorem State.writeCmd_dst : (s.writeCmd w).dst = s.dst := rfl
@[simp] theorem State.writeCmd_host : (s.writeCmd w).host = s.host := rfl
@[simp] theorem State.writeCmd_resetIn : (s.writeCmd w).resetIn = s.resetIn := rfl
@[simp] theorem State.writeCmd_delay : (s.writeCmd w).delay = Config.commandTurns s.issued := rfl
@[simp] theorem State.writeCmd_issued : (s.writeCmd w).issued = s.issued + 1 := rfl

end

section
variable (s : State) (w : Word)

@[simp] theorem State.latchNow_params : (s.latchNow w).params = s.params := rfl
@[simp] theorem State.latchNow_cmd : (s.latchNow w).cmd = w := rfl
@[simp] theorem State.latchNow_argAddr : (s.latchNow w).argAddr = s.argAddr := rfl
@[simp] theorem State.latchNow_argLen : (s.latchNow w).argLen = s.argLen := rfl
@[simp] theorem State.latchNow_dstAddr : (s.latchNow w).dstAddr = s.dstAddr := rfl
@[simp] theorem State.latchNow_typeReg : (s.latchNow w).typeReg = s.typeReg := rfl
@[simp] theorem State.latchNow_index : (s.latchNow w).index = s.index := rfl
@[simp] theorem State.latchNow_resLen : (s.latchNow w).resLen = s.resLen := rfl
@[simp] theorem State.latchNow_crcIn : (s.latchNow w).crcIn = s.crcIn := rfl
@[simp] theorem State.latchNow_crcState : (s.latchNow w).crcState = s.crcState := rfl
@[simp] theorem State.latchNow_errcode : (s.latchNow w).errcode = s.errcode := rfl
@[simp] theorem State.latchNow_errStored : (s.latchNow w).errStored = s.errStored := rfl
@[simp] theorem State.latchNow_errComputed : (s.latchNow w).errComputed = s.errComputed := rfl
@[simp] theorem State.latchNow_busy : (s.latchNow w).busy = true := rfl
@[simp] theorem State.latchNow_done : (s.latchNow w).done = false := rfl
@[simp] theorem State.latchNow_found : (s.latchNow w).found = s.found := rfl
@[simp] theorem State.latchNow_latch : (s.latchNow w).latch = w := rfl
@[simp] theorem State.latchNow_stg : (s.latchNow w).stg = s.stg := rfl
@[simp] theorem State.latchNow_stgDecl : (s.latchNow w).stgDecl = s.stgDecl := rfl
@[simp] theorem State.latchNow_cont : (s.latchNow w).cont = s.cont := rfl
@[simp] theorem State.latchNow_src : (s.latchNow w).src = s.src := rfl
@[simp] theorem State.latchNow_dst : (s.latchNow w).dst = s.dst := rfl
@[simp] theorem State.latchNow_host : (s.latchNow w).host = s.host := rfl
@[simp] theorem State.latchNow_resetIn : (s.latchNow w).resetIn = [] := rfl
@[simp] theorem State.latchNow_delay : (s.latchNow w).delay = 0 := rfl
@[simp] theorem State.latchNow_issued : (s.latchNow w).issued = s.issued := rfl

end

section
variable (s : State) (n : Nat)

@[simp] theorem State.hostGoto_params : (s.hostGoto n).params = s.params := rfl
@[simp] theorem State.hostGoto_cmd : (s.hostGoto n).cmd = s.cmd := rfl
@[simp] theorem State.hostGoto_argAddr : (s.hostGoto n).argAddr = s.argAddr := rfl
@[simp] theorem State.hostGoto_argLen : (s.hostGoto n).argLen = s.argLen := rfl
@[simp] theorem State.hostGoto_dstAddr : (s.hostGoto n).dstAddr = s.dstAddr := rfl
@[simp] theorem State.hostGoto_typeReg : (s.hostGoto n).typeReg = s.typeReg := rfl
@[simp] theorem State.hostGoto_index : (s.hostGoto n).index = s.index := rfl
@[simp] theorem State.hostGoto_resLen : (s.hostGoto n).resLen = s.resLen := rfl
@[simp] theorem State.hostGoto_crcIn : (s.hostGoto n).crcIn = s.crcIn := rfl
@[simp] theorem State.hostGoto_crcState : (s.hostGoto n).crcState = s.crcState := rfl
@[simp] theorem State.hostGoto_errcode : (s.hostGoto n).errcode = s.errcode := rfl
@[simp] theorem State.hostGoto_errStored : (s.hostGoto n).errStored = s.errStored := rfl
@[simp] theorem State.hostGoto_errComputed : (s.hostGoto n).errComputed = s.errComputed := rfl
@[simp] theorem State.hostGoto_busy : (s.hostGoto n).busy = s.busy := rfl
@[simp] theorem State.hostGoto_done : (s.hostGoto n).done = s.done := rfl
@[simp] theorem State.hostGoto_found : (s.hostGoto n).found = s.found := rfl
@[simp] theorem State.hostGoto_latch : (s.hostGoto n).latch = s.latch := rfl
@[simp] theorem State.hostGoto_stg : (s.hostGoto n).stg = s.stg := rfl
@[simp] theorem State.hostGoto_stgDecl : (s.hostGoto n).stgDecl = s.stgDecl := rfl
@[simp] theorem State.hostGoto_cont : (s.hostGoto n).cont = s.cont := rfl
@[simp] theorem State.hostGoto_src : (s.hostGoto n).src = s.src := rfl
@[simp] theorem State.hostGoto_dst : (s.hostGoto n).dst = s.dst := rfl
@[simp] theorem State.hostGoto_host : (s.hostGoto n).host = { s.host with pos := n } := rfl
@[simp] theorem State.hostGoto_resetIn : (s.hostGoto n).resetIn = s.resetIn := rfl
@[simp] theorem State.hostGoto_delay : (s.hostGoto n).delay = s.delay := rfl
@[simp] theorem State.hostGoto_issued : (s.hostGoto n).issued = s.issued := rfl

end

section
variable (s : State)

@[simp] theorem State.afterLevel_params : (s.afterLevel).params = s.params := rfl
@[simp] theorem State.afterLevel_cmd : (s.afterLevel).cmd = s.cmd := rfl
@[simp] theorem State.afterLevel_argAddr : (s.afterLevel).argAddr = s.argAddr := rfl
@[simp] theorem State.afterLevel_argLen : (s.afterLevel).argLen = s.argLen := rfl
@[simp] theorem State.afterLevel_dstAddr : (s.afterLevel).dstAddr = s.dstAddr := rfl
@[simp] theorem State.afterLevel_typeReg : (s.afterLevel).typeReg = s.typeReg := rfl
@[simp] theorem State.afterLevel_index : (s.afterLevel).index = s.index := rfl
@[simp] theorem State.afterLevel_resLen : (s.afterLevel).resLen = s.resLen := rfl
@[simp] theorem State.afterLevel_crcIn : (s.afterLevel).crcIn = s.crcIn := rfl
@[simp] theorem State.afterLevel_crcState : (s.afterLevel).crcState = s.crcState := rfl
@[simp] theorem State.afterLevel_errcode : (s.afterLevel).errcode = s.errcode := rfl
@[simp] theorem State.afterLevel_errStored : (s.afterLevel).errStored = s.errStored := rfl
@[simp] theorem State.afterLevel_errComputed : (s.afterLevel).errComputed = s.errComputed := rfl
@[simp] theorem State.afterLevel_busy : (s.afterLevel).busy = s.busy := rfl
@[simp] theorem State.afterLevel_done : (s.afterLevel).done = s.done := rfl
@[simp] theorem State.afterLevel_found : (s.afterLevel).found = s.found := rfl
@[simp] theorem State.afterLevel_latch : (s.afterLevel).latch = s.latch := rfl
@[simp] theorem State.afterLevel_stg : (s.afterLevel).stg = s.stg := rfl
@[simp] theorem State.afterLevel_stgDecl : (s.afterLevel).stgDecl = s.stgDecl := rfl
@[simp] theorem State.afterLevel_cont : (s.afterLevel).cont = s.cont := rfl
@[simp] theorem State.afterLevel_src : (s.afterLevel).src = s.src := rfl
@[simp] theorem State.afterLevel_dst : (s.afterLevel).dst = s.dst := rfl
@[simp] theorem State.afterLevel_host : (s.afterLevel).host = s.host := rfl
@[simp] theorem State.afterLevel_resetIn : (s.afterLevel).resetIn = s.resetIn.tail := rfl
@[simp] theorem State.afterLevel_delay : (s.afterLevel).delay = s.delay := rfl
@[simp] theorem State.afterLevel_issued : (s.afterLevel).issued = s.issued := rfl

@[simp] theorem State.hostTurnTaken_params : (s.hostTurnTaken).params = s.params := rfl
@[simp] theorem State.hostTurnTaken_cmd : (s.hostTurnTaken).cmd = s.cmd := rfl
@[simp] theorem State.hostTurnTaken_argAddr : (s.hostTurnTaken).argAddr = s.argAddr := rfl
@[simp] theorem State.hostTurnTaken_argLen : (s.hostTurnTaken).argLen = s.argLen := rfl
@[simp] theorem State.hostTurnTaken_dstAddr : (s.hostTurnTaken).dstAddr = s.dstAddr := rfl
@[simp] theorem State.hostTurnTaken_typeReg : (s.hostTurnTaken).typeReg = s.typeReg := rfl
@[simp] theorem State.hostTurnTaken_index : (s.hostTurnTaken).index = s.index := rfl
@[simp] theorem State.hostTurnTaken_resLen : (s.hostTurnTaken).resLen = s.resLen := rfl
@[simp] theorem State.hostTurnTaken_crcIn : (s.hostTurnTaken).crcIn = s.crcIn := rfl
@[simp] theorem State.hostTurnTaken_crcState : (s.hostTurnTaken).crcState = s.crcState := rfl
@[simp] theorem State.hostTurnTaken_errcode : (s.hostTurnTaken).errcode = s.errcode := rfl
@[simp] theorem State.hostTurnTaken_errStored : (s.hostTurnTaken).errStored = s.errStored := rfl
@[simp] theorem State.hostTurnTaken_errComputed : (s.hostTurnTaken).errComputed = s.errComputed := rfl
@[simp] theorem State.hostTurnTaken_busy : (s.hostTurnTaken).busy = s.busy := rfl
@[simp] theorem State.hostTurnTaken_done : (s.hostTurnTaken).done = s.done := rfl
@[simp] theorem State.hostTurnTaken_found : (s.hostTurnTaken).found = s.found := rfl
@[simp] theorem State.hostTurnTaken_latch : (s.hostTurnTaken).latch = s.latch := rfl
@[simp] theorem State.hostTurnTaken_stg : (s.hostTurnTaken).stg = s.stg := rfl
@[simp] theorem State.hostTurnTaken_stgDecl : (s.hostTurnTaken).stgDecl = s.stgDecl := rfl
@[simp] theorem State.hostTurnTaken_cont : (s.hostTurnTaken).cont = s.cont := rfl
@[simp] theorem State.hostTurnTaken_src : (s.hostTurnTaken).src = s.src := rfl
@[simp] theorem State.hostTurnTaken_dst : (s.hostTurnTaken).dst = s.dst := rfl
@[simp] theorem State.hostTurnTaken_host : (s.hostTurnTaken).host = s.host := rfl
@[simp] theorem State.hostTurnTaken_resetIn : (s.hostTurnTaken).resetIn = s.resetIn.tail := rfl
@[simp] theorem State.hostTurnTaken_delay :
    (s.hostTurnTaken).delay = if s.busy then s.delay - 1 else s.delay := rfl
@[simp] theorem State.hostTurnTaken_issued : (s.hostTurnTaken).issued = s.issued := rfl

end

section
variable (s : State) (p : List HostOp)

@[simp] theorem State.withProgram_params : (s.withProgram p).params = s.params := rfl
@[simp] theorem State.withProgram_cmd : (s.withProgram p).cmd = s.cmd := rfl
@[simp] theorem State.withProgram_argAddr : (s.withProgram p).argAddr = s.argAddr := rfl
@[simp] theorem State.withProgram_argLen : (s.withProgram p).argLen = s.argLen := rfl
@[simp] theorem State.withProgram_dstAddr : (s.withProgram p).dstAddr = s.dstAddr := rfl
@[simp] theorem State.withProgram_typeReg : (s.withProgram p).typeReg = s.typeReg := rfl
@[simp] theorem State.withProgram_index : (s.withProgram p).index = s.index := rfl
@[simp] theorem State.withProgram_resLen : (s.withProgram p).resLen = s.resLen := rfl
@[simp] theorem State.withProgram_crcIn : (s.withProgram p).crcIn = s.crcIn := rfl
@[simp] theorem State.withProgram_crcState : (s.withProgram p).crcState = s.crcState := rfl
@[simp] theorem State.withProgram_errcode : (s.withProgram p).errcode = s.errcode := rfl
@[simp] theorem State.withProgram_errStored : (s.withProgram p).errStored = s.errStored := rfl
@[simp] theorem State.withProgram_errComputed : (s.withProgram p).errComputed = s.errComputed := rfl
@[simp] theorem State.withProgram_busy : (s.withProgram p).busy = s.busy := rfl
@[simp] theorem State.withProgram_done : (s.withProgram p).done = s.done := rfl
@[simp] theorem State.withProgram_found : (s.withProgram p).found = s.found := rfl
@[simp] theorem State.withProgram_latch : (s.withProgram p).latch = s.latch := rfl
@[simp] theorem State.withProgram_stg : (s.withProgram p).stg = s.stg := rfl
@[simp] theorem State.withProgram_stgDecl : (s.withProgram p).stgDecl = s.stgDecl := rfl
@[simp] theorem State.withProgram_cont : (s.withProgram p).cont = s.cont := rfl
@[simp] theorem State.withProgram_src : (s.withProgram p).src = s.src := rfl
@[simp] theorem State.withProgram_dst : (s.withProgram p).dst = s.dst := rfl
@[simp] theorem State.withProgram_host : (s.withProgram p).host = { HostAgent.idle with prog := p } := rfl
@[simp] theorem State.withProgram_resetIn : (s.withProgram p).resetIn = s.resetIn := rfl
@[simp] theorem State.withProgram_delay : (s.withProgram p).delay = s.delay := rfl
@[simp] theorem State.withProgram_issued : (s.withProgram p).issued = s.issued := rfl

end

section
variable (s : State) (a b : Word)

@[simp] theorem State.record_nothing : s.record .nothing = s := rfl
@[simp] theorem State.record_crcs_params : (s.record (.crcs a b)).params = s.params := rfl
@[simp] theorem State.record_crcs_cmd : (s.record (.crcs a b)).cmd = s.cmd := rfl
@[simp] theorem State.record_crcs_argAddr : (s.record (.crcs a b)).argAddr = s.argAddr := rfl
@[simp] theorem State.record_crcs_argLen : (s.record (.crcs a b)).argLen = s.argLen := rfl
@[simp] theorem State.record_crcs_dstAddr : (s.record (.crcs a b)).dstAddr = s.dstAddr := rfl
@[simp] theorem State.record_crcs_typeReg : (s.record (.crcs a b)).typeReg = s.typeReg := rfl
@[simp] theorem State.record_crcs_index : (s.record (.crcs a b)).index = s.index := rfl
@[simp] theorem State.record_crcs_resLen : (s.record (.crcs a b)).resLen = s.resLen := rfl
@[simp] theorem State.record_crcs_crcIn : (s.record (.crcs a b)).crcIn = s.crcIn := rfl
@[simp] theorem State.record_crcs_crcState : (s.record (.crcs a b)).crcState = s.crcState := rfl
@[simp] theorem State.record_crcs_errcode : (s.record (.crcs a b)).errcode = s.errcode := rfl
@[simp] theorem State.record_crcs_errStored : (s.record (.crcs a b)).errStored = a := rfl
@[simp] theorem State.record_crcs_errComputed : (s.record (.crcs a b)).errComputed = b := rfl
@[simp] theorem State.record_crcs_busy : (s.record (.crcs a b)).busy = s.busy := rfl
@[simp] theorem State.record_crcs_done : (s.record (.crcs a b)).done = s.done := rfl
@[simp] theorem State.record_crcs_found : (s.record (.crcs a b)).found = s.found := rfl
@[simp] theorem State.record_crcs_latch : (s.record (.crcs a b)).latch = s.latch := rfl
@[simp] theorem State.record_crcs_stg : (s.record (.crcs a b)).stg = s.stg := rfl
@[simp] theorem State.record_crcs_stgDecl : (s.record (.crcs a b)).stgDecl = s.stgDecl := rfl
@[simp] theorem State.record_crcs_cont : (s.record (.crcs a b)).cont = s.cont := rfl
@[simp] theorem State.record_crcs_src : (s.record (.crcs a b)).src = s.src := rfl
@[simp] theorem State.record_crcs_dst : (s.record (.crcs a b)).dst = s.dst := rfl
@[simp] theorem State.record_crcs_host : (s.record (.crcs a b)).host = s.host := rfl
@[simp] theorem State.record_crcs_resetIn : (s.record (.crcs a b)).resetIn = s.resetIn := rfl
@[simp] theorem State.record_crcs_delay : (s.record (.crcs a b)).delay = s.delay := rfl
@[simp] theorem State.record_crcs_issued : (s.record (.crcs a b)).issued = s.issued := rfl

end

section
variable (s : State)

@[simp] theorem State.hardReset_params : s.hardReset.params = s.params := rfl
@[simp] theorem State.hardReset_cmd : s.hardReset.cmd = 0 := rfl
@[simp] theorem State.hardReset_argAddr : s.hardReset.argAddr = 0 := rfl
@[simp] theorem State.hardReset_argLen : s.hardReset.argLen = 0 := rfl
@[simp] theorem State.hardReset_dstAddr : s.hardReset.dstAddr = 0 := rfl
@[simp] theorem State.hardReset_typeReg : s.hardReset.typeReg = 0 := rfl
@[simp] theorem State.hardReset_index : s.hardReset.index = 0 := rfl
@[simp] theorem State.hardReset_resLen : s.hardReset.resLen = 0 := rfl
@[simp] theorem State.hardReset_crcIn : s.hardReset.crcIn = 0 := rfl
@[simp] theorem State.hardReset_crcState : s.hardReset.crcState = 0xFFFFFFFF := rfl
@[simp] theorem State.hardReset_errcode : s.hardReset.errcode = .none := rfl
@[simp] theorem State.hardReset_errStored : s.hardReset.errStored = 0 := rfl
@[simp] theorem State.hardReset_errComputed : s.hardReset.errComputed = 0 := rfl
@[simp] theorem State.hardReset_busy : s.hardReset.busy = false := rfl
@[simp] theorem State.hardReset_done : s.hardReset.done = false := rfl
@[simp] theorem State.hardReset_found : s.hardReset.found = false := rfl
@[simp] theorem State.hardReset_latch : s.hardReset.latch = 0 := rfl
@[simp] theorem State.hardReset_stg : s.hardReset.stg = none := rfl
@[simp] theorem State.hardReset_stgDecl : s.hardReset.stgDecl = 0 := rfl
@[simp] theorem State.hardReset_cont : s.hardReset.cont = [] := rfl
@[simp] theorem State.hardReset_src : s.hardReset.src = [] := rfl
@[simp] theorem State.hardReset_dst : s.hardReset.dst = [] := rfl
@[simp] theorem State.hardReset_host : s.hardReset.host = s.host := rfl
@[simp] theorem State.hardReset_resetIn : s.hardReset.resetIn = s.resetIn := rfl
@[simp] theorem State.hardReset_delay : s.hardReset.delay = 0 := rfl
@[simp] theorem State.hardReset_issued : s.hardReset.issued = s.issued := rfl

end

section
variable (p : Params)

@[simp] theorem State.resetWith_params : (State.resetWith p).params = p := rfl
@[simp] theorem State.resetWith_cmd : (State.resetWith p).cmd = 0 := rfl
@[simp] theorem State.resetWith_argAddr : (State.resetWith p).argAddr = 0 := rfl
@[simp] theorem State.resetWith_argLen : (State.resetWith p).argLen = 0 := rfl
@[simp] theorem State.resetWith_dstAddr : (State.resetWith p).dstAddr = 0 := rfl
@[simp] theorem State.resetWith_typeReg : (State.resetWith p).typeReg = 0 := rfl
@[simp] theorem State.resetWith_index : (State.resetWith p).index = 0 := rfl
@[simp] theorem State.resetWith_resLen : (State.resetWith p).resLen = 0 := rfl
@[simp] theorem State.resetWith_crcIn : (State.resetWith p).crcIn = 0 := rfl
@[simp] theorem State.resetWith_crcState : (State.resetWith p).crcState = 0xFFFFFFFF := rfl
@[simp] theorem State.resetWith_errcode : (State.resetWith p).errcode = .none := rfl
@[simp] theorem State.resetWith_errStored : (State.resetWith p).errStored = 0 := rfl
@[simp] theorem State.resetWith_errComputed : (State.resetWith p).errComputed = 0 := rfl
@[simp] theorem State.resetWith_busy : (State.resetWith p).busy = false := rfl
@[simp] theorem State.resetWith_done : (State.resetWith p).done = false := rfl
@[simp] theorem State.resetWith_found : (State.resetWith p).found = false := rfl
@[simp] theorem State.resetWith_latch : (State.resetWith p).latch = 0 := rfl
@[simp] theorem State.resetWith_stg : (State.resetWith p).stg = none := rfl
@[simp] theorem State.resetWith_stgDecl : (State.resetWith p).stgDecl = 0 := rfl
@[simp] theorem State.resetWith_cont : (State.resetWith p).cont = [] := rfl
@[simp] theorem State.resetWith_src : (State.resetWith p).src = [] := rfl
@[simp] theorem State.resetWith_dst : (State.resetWith p).dst = [] := rfl
@[simp] theorem State.resetWith_host : (State.resetWith p).host = .idle := rfl
@[simp] theorem State.resetWith_resetIn : (State.resetWith p).resetIn = [] := rfl
@[simp] theorem State.resetWith_delay : (State.resetWith p).delay = 0 := rfl
@[simp] theorem State.resetWith_issued : (State.resetWith p).issued = 0 := rfl

end

end Sys2Proof.Machine
end

