-- ==== Sys2Proof/Laws/Commands.lean ====
section
/-! SUPPORT. What each shared operation can do, said once; and what a command can do. -/

namespace Sys2Proof.Machine

variable {s t : State}

@[simp] theorem succeed_eq_next : succeed s = .next t ↔ s.complete .none = t := by
  simp [succeed]

@[simp] theorem raise_eq_next {e : CmdError} :
    raise e s = .next t ↔ (s.record e.info).complete e.code = t := by
  simp [raise]

@[simp] theorem State.record_plain (c : ErrCode) : s.record (CmdError.plain c).info = s := rfl

@[simp] theorem CmdError.plain_code (c : ErrCode) : (CmdError.plain c).code = c := rfl

/-- `SrcRead` on ARG_ADDR and ARG_LEN answers `bs` exactly when the range holds `bs` (20 R56). -/
theorem srcRead_eq_bytes {bs : List Byte} :
    srcRead s s.argAddr.toNat s.argLen.toNat = .bytes bs ↔ s.srcHolds bs := by
  unfold srcRead State.srcHolds
  constructor
  · intro h
    split at h
    · simp at h
    · split at h
      · simp at h
      · rename_i hb _ _ hr
        simp only [SrcResult.bytes.injEq] at h
        subst h
        obtain ⟨hl, hv⟩ := Memory.readRange_eq_some.1 hr
        exact ⟨hl, by omega, hv⟩
  · rintro ⟨hl, hb, hv⟩
    rw [if_neg (by omega), Memory.readRange_eq_some.2 ⟨hl, hv⟩]

/-- A command whose range holds `bs` goes on with `bs`. -/
theorem withSource_of_srcHolds {bs : List Byte} (h : s.srcHolds bs) (k : List Byte → Result) :
    withSource s k = k bs := by
  rw [withSource, srcRead_eq_bytes.2 h]

/-- A range that does not fit raises BOUNDS (20 R58). -/
theorem withSource_of_bounds (h : s.params.srcSize.toNat < s.argAddr.toNat + s.argLen.toNat)
    (k : List Byte → Result) : withSource s k = raise (.plain .bounds) s := by
  rw [withSource, srcRead, if_pos h]

/-- A range that fits and holds an unwritten cell is a model fault (20 R55). -/
theorem withSource_of_unwritten (hb : s.argAddr.toNat + s.argLen.toNat ≤ s.params.srcSize.toNat)
    {j : Nat} (hj : j < s.argLen.toNat) (hr : s.src.read (s.argAddr.toNat + j) = none)
    (k : List Byte → Result) : withSource s k = .fault .unwrittenSource := by
  rw [withSource, srcRead, if_neg (by omega), Memory.readRange_eq_none.2 ⟨j, hj, hr⟩]

/-- All that a command reading the SRC range can do. -/
theorem withSource_cases (s : State) (k : List Byte → Result) :
    withSource s k = raise (.plain .bounds) s
    ∨ withSource s k = .fault .unwrittenSource
    ∨ ∃ bs, s.srcHolds bs ∧ withSource s k = k bs := by
  cases h : srcRead s s.argAddr.toNat s.argLen.toNat with
  | bounds => exact .inl (by rw [withSource, h])
  | unwritten => exact .inr (.inl (by rw [withSource, h]))
  | bytes bs => exact .inr (.inr ⟨bs, srcRead_eq_bytes.1 h, by rw [withSource, h]⟩)

/-- All that a command writing DST can do (20 R57). -/
theorem emitBytes_cases (s : State) (out : List Byte) :
    (s.params.dstSize.toNat < s.dstAddr.toNat + out.length
      ∧ emitBytes s out = raise (.plain .bounds) s)
    ∨ (s.dstFits out.length
      ∧ emitBytes s out = succeed { s with
          dst := s.dst.writeRange s.dstAddr.toNat out
          resLen := BitVec.ofNat 32 out.length }) := by
  unfold emitBytes State.dstFits
  split
  · exact .inl ⟨‹_›, rfl⟩
  · exact .inr ⟨by omega, rfl⟩

/-- All that a command needing STG can do (60 R123). -/
theorem withStage_cases (s : State) (k : Chunk → Result) :
    (s.stg = none ∧ withStage s k = raise (.plain .stageEmpty) s)
    ∨ ∃ c, s.stg = some c ∧ withStage s k = k c := by
  unfold withStage
  cases s.stg with
  | none => exact .inl ⟨rfl, rfl⟩
  | some c => exact .inr ⟨c, rfl, rfl⟩

/-- All that the staging of a record of CONT can do (43 R115, R116). -/
theorem stageChunk_cases (s s' : State) (k : Chunk) :
    (s.params.stgCap.toNat < k.data.length ∧ stageChunk s s' k = raise (.plain .capacity) s)
    ∨ (k.data.length ≤ s.params.stgCap.toNat ∧ stageChunk s s' k = succeed (s'.loadStg k k.len)) := by
  unfold stageChunk
  split
  · exact .inl ⟨‹_›, rfl⟩
  · exact .inr ⟨by omega, rfl⟩

/-- All that the CRC check of a frame can do (42 R101). -/
theorem checkedChunk_cases (ty : Tag) (d : List Byte) (stored : Word) :
    (stored = chunkCrc ty d ∧ checkedChunk ty d stored = .ok ⟨ty, d, stored⟩)
    ∨ (stored ≠ chunkCrc ty d
      ∧ checkedChunk ty d stored = .error (.mismatch stored (chunkCrc ty d))) := by
  unfold checkedChunk
  split
  · exact .inr ⟨‹_›, rfl⟩
  · rename_i h
    exact .inl ⟨not_not.1 h, by rw [not_not.1 h]⟩

/-- All that the permissive parse can do (42 R101). -/
theorem parseFrame_cases (p : Params) (f : List Byte) :
    (∃ e, parseFrame p f = .error e)
    ∨ ∃ k, parseFrame p f = .ok k ∧ k.crc = chunkCrc k.type k.data
        ∧ k.data.length ≤ p.stgCap.toNat := by
  unfold parseFrame
  split
  · exact .inl ⟨_, rfl⟩
  · split
    · exact .inl ⟨_, rfl⟩
    · rcases checkedChunk_cases (Tag.ofBytes (slice f 4 8)) (slice f 8 (f.length - 4))
          (be32 (slice f (f.length - 4) f.length)) with ⟨hc, h⟩ | ⟨-, h⟩
      · refine .inr ⟨_, h, hc, ?_⟩
        simp only [slice, List.length_take, List.length_drop]
        omega
      · exact .inl ⟨_, h⟩

/-- The errors of the permissive parse: an error it reports is one of three (60 R124). -/
theorem parseFrame_error {p : Params} {f : List Byte} {e : CmdError}
    (h : parseFrame p f = .error e) :
    e = .plain .truncated ∨ e = .plain .capacity ∨ ∃ a b, e = .mismatch a b := by
  unfold parseFrame at h
  split at h
  · simp_all
  · split at h
    · simp_all
    · rcases checkedChunk_cases (Tag.ofBytes (slice f 4 8)) (slice f 8 (f.length - 4))
          (be32 (slice f (f.length - 4) f.length)) with ⟨-, h'⟩ | ⟨-, h'⟩
      · simp [h'] at h
      · rw [h'] at h
        exact .inr (.inr ⟨_, _, by simpa using h.symm⟩)

/-- A found position is a position of the sequence. -/
theorem firstOf_eq_some {ks : List Chunk} {w : Word} {i : Nat} (h : firstOf ks w = some i) :
    ∃ k, ks[i]? = some k ∧ k.type = Tag.ofWord w
      ∧ ∀ j, j < i → ∀ l, ks[j]? = some l → l.type ≠ Tag.ofWord w := by
  unfold firstOf at h
  obtain ⟨hi, hm, hlt⟩ := List.findIdx?_eq_some_iff_getElem.1 h
  refine ⟨ks[i], by simp [hi], by simpa [Chunk.hasType] using hm, fun j hj l hl => ?_⟩
  have := hlt j hj
  obtain ⟨hj', rfl⟩ := List.getElem?_eq_some_iff.1 hl
  simpa [Chunk.hasType] using this

/-- The least matching position is the one found (43 R108). -/
theorem firstOf_of_least {ks : List Chunk} {w : Word} {i : Nat} {k : Chunk} (hk : ks[i]? = some k)
    (hm : k.type = Tag.ofWord w)
    (hlt : ∀ j, j < i → ∀ l, ks[j]? = some l → l.type ≠ Tag.ofWord w) : firstOf ks w = some i := by
  unfold firstOf
  obtain ⟨hi, rfl⟩ := List.getElem?_eq_some_iff.1 hk
  refine List.findIdx?_eq_some_iff_getElem.2 ⟨hi, by simpa [Chunk.hasType] using hm, fun j hj => ?_⟩
  simpa [Chunk.hasType] using hlt j hj ks[j] (by simp)

/-- Nothing is found exactly when nothing matches (43 R108). -/
theorem firstOf_eq_none {ks : List Chunk} {w : Word} :
    firstOf ks w = none ↔ ∀ k ∈ ks, k.type ≠ Tag.ofWord w := by
  simp [firstOf, Chunk.hasType]

end Sys2Proof.Machine
end

