-- ==== Sys2Proof/Laws/Walk.lean ====
section
/-! SUPPORT. The authoritative walk (43 R109): a frame at the front is taken, an accepted stream is a run of frames,
the bound on the number of frames is never used up. -/

namespace Sys2Proof.Machine

/-- A record whose length field holds its length. -/
theorem Chunk.len_toNat {k : Chunk} (h : k.data.length < 2 ^ 32) : k.len.toNat = k.data.length := by
  rw [Chunk.len, BitVec.toNat_ofNat, Nat.mod_eq_of_lt h]

/-- A frame followed by anything, its four fields side by side. -/
theorem frame_append (k : Chunk) (rest : List Byte) :
    frame k ++ rest = be32bytes k.len ++ (k.type.bytes ++ (k.data ++ (be32bytes k.crc ++ rest))) := by
  simp [frame]

section
variable (k : Chunk) (rest : List Byte)

theorem be32_frame : be32 (frame k ++ rest) = k.len := by
  rw [frame_append, be32_be32bytes_append]

theorem slice_frame_type : slice (frame k ++ rest) 4 8 = k.type.bytes := by
  rw [frame_append]
  rfl

theorem drop_frame_head :
    (frame k ++ rest).drop 8 = k.data ++ (be32bytes k.crc ++ rest) := by
  rw [frame_append]
  rfl

theorem slice_frame_data : slice (frame k ++ rest) 8 (8 + k.data.length) = k.data := by
  rw [slice, drop_frame_head, show 8 + k.data.length - 8 = k.data.length by omega]
  simp

theorem drop_frame_data :
    (frame k ++ rest).drop (8 + k.data.length) = be32bytes k.crc ++ rest := by
  rw [← List.drop_drop, drop_frame_head]
  simp

theorem be32_frame_crc :
    be32 (slice (frame k ++ rest) (8 + k.data.length) (12 + k.data.length)) = k.crc := by
  rw [slice, drop_frame_data,
    show 12 + k.data.length - (8 + k.data.length) = (be32bytes k.crc).length by simp; omega,
    List.take_left, be32_be32bytes]

theorem drop_frame : (frame k ++ rest).drop (12 + k.data.length) = rest := by
  rw [← frame_length k]
  simp

end

/-- `be32` looks at the first four bytes only. -/
theorem be32bytes_be32_take {s : List Byte} (h : 4 ≤ s.length) : be32bytes (be32 s) = s.take 4 := by
  have hs : be32 s = be32 (s.take 4) := by
    simp [be32, List.getD_eq_getElem?_getD]
  rw [hs, be32bytes_be32 (by simp; omega)]

/-- Four bytes at the front of a slice's source, rebuilt from its fields. -/
theorem frame_of_fields {s : List Byte} {n : Nat} (hs : 12 + n ≤ s.length) (hn : (be32 s).toNat = n) :
    s = frame ⟨Tag.ofBytes (slice s 4 8), slice s 8 (8 + n), be32 (slice s (8 + n) (12 + n))⟩
      ++ s.drop (12 + n) := by
  have h4 : (slice s 4 8).length = 4 := by simp [slice]; omega
  have hc : (slice s (8 + n) (12 + n)).length = 4 := by simp [slice]; omega
  have hd : (slice s 8 (8 + n)).length = n := by simp [slice]; omega
  have hlen : BitVec.ofNat 32 n = be32 s := by simp [← hn]
  have hb : be32bytes (be32 s) = s.take 4 := be32bytes_be32_take (by omega)
  rw [frame_append]
  simp only [Chunk.len, hd, hlen, hb, Tag.bytes_ofBytes h4, be32bytes_be32 hc]
  simp only [slice, show 8 - 4 = 4 by rfl, show 8 + n - 8 = n by omega,
    show 12 + n - (8 + n) = 4 by omega]
  have e1 : (s.drop (8 + n)).take 4 ++ s.drop (12 + n) = s.drop (8 + n) := by
    have := List.take_append_drop 4 (s.drop (8 + n))
    rwa [List.drop_drop, show 8 + n + 4 = 12 + n by omega] at this
  have e2 : (s.drop 8).take n ++ s.drop (8 + n) = s.drop 8 := by
    rw [← List.drop_drop, List.take_append_drop]
  have e3 : (s.drop 4).take 4 ++ s.drop 8 = s.drop 4 := by
    rw [show 8 = 4 + 4 by rfl, ← List.drop_drop, List.take_append_drop]
  rw [e1, e2, e3, List.take_append_drop]

@[simp] theorem walkLoop_nil (p : Params) (n : Nat) (acc : List Chunk) (used : Nat) :
    walkLoop p n [] acc used = .ok acc := by
  cases n <;> rfl

/-- One turn of the loop, for bytes that remain. -/
theorem walkLoop_succ (p : Params) (n : Nat) {rest : List Byte} (hr : rest ≠ []) (acc : List Chunk)
    (used : Nat) :
    walkLoop p (n + 1) rest acc used =
      if rest.length < 4 then .error (.plain .truncated)
      else if rest.length < 12 + (be32 rest).toNat then .error (.plain .truncated)
      else if acc.length + 1 > p.maxChunks.toNat ∨ used + (be32 rest).toNat > p.storeCap.toNat then
        .error (.plain .capacity)
      else
        match checkedChunk (Tag.ofBytes (slice rest 4 8)) (slice rest 8 (8 + (be32 rest).toNat))
            (be32 (slice rest (8 + (be32 rest).toNat) (12 + (be32 rest).toNat))) with
        | .error e => .error e
        | .ok k => walkLoop p n (rest.drop (12 + (be32 rest).toNat)) (acc ++ [k])
            (used + (be32 rest).toNat) := by
  cases rest with
  | nil => exact absurd rfl hr
  | cons b rest => rfl

/-- A frame that is right and fits is taken (43 R109). -/
theorem walkLoop_frame {p : Params} (n : Nat) {k : Chunk} (rest : List Byte) {acc : List Chunk}
    {used : Nat} (hl : k.data.length < 2 ^ 32) (hc : k.crc = chunkCrc k.type k.data)
    (hm : acc.length + 1 ≤ p.maxChunks.toNat)
    (hu : used + k.data.length ≤ p.storeCap.toNat) :
    walkLoop p (n + 1) (frame k ++ rest) acc used =
      walkLoop p n rest (acc ++ [k]) (used + k.data.length) := by
  have hlen : (frame k ++ rest).length = 12 + k.data.length + rest.length := by
    rw [List.length_append, frame_length]
  have hne : frame k ++ rest ≠ [] := fun h => by
    rw [h] at hlen
    simp at hlen
    omega
  rw [walkLoop_succ p n hne, be32_frame, Chunk.len_toNat hl, if_neg (by omega), if_neg (by omega),
    if_neg (by omega), slice_frame_type, slice_frame_data, be32_frame_crc, drop_frame,
    Tag.ofBytes_bytes]
  rcases checkedChunk_cases k.type k.data k.crc with ⟨-, h⟩ | ⟨h, -⟩
  · rw [h]
  · exact absurd hc h

/-- A run of frames that are right and fit is taken, one after the other. -/
theorem walkLoop_frames {p : Params} (n : Nat) {ks : List Chunk} (rest : List Byte)
    {acc : List Chunk} {used : Nat} (hl : ∀ k ∈ ks, k.data.length < 2 ^ 32)
    (hc : ∀ k ∈ ks, k.crc = chunkCrc k.type k.data)
    (hm : acc.length + ks.length ≤ p.maxChunks.toNat)
    (hu : used + dataTotal ks ≤ p.storeCap.toNat) :
    walkLoop p (n + ks.length) (ks.flatMap frame ++ rest) acc used =
      walkLoop p n rest (acc ++ ks) (used + dataTotal ks) := by
  induction ks generalizing acc used with
  | nil => simp
  | cons k ks ih =>
    rw [List.length_cons] at hm
    rw [dataTotal_cons] at hu
    rw [List.flatMap_cons, List.append_assoc, List.length_cons, ← Nat.add_assoc,
      walkLoop_frame _ _ (hl k (by simp)) (hc k (by simp)) (by omega) (by omega),
      ih (fun l h => hl l (by simp [h])) (fun l h => hc l (by simp [h])) (by simp; omega) (by omega)]
    simp [Nat.add_assoc]

/-- All that the walk can do to the bytes it accepts: they are a run of frames, each right, all within the
capacities. -/
theorem walkLoop_ok {p : Params} {n : Nat} {rest : List Byte} {acc ls : List Chunk} {used : Nat}
    (h : walkLoop p n rest acc used = .ok ls) (hm : acc.length ≤ p.maxChunks.toNat)
    (hu : used ≤ p.storeCap.toNat) :
    ∃ ks, ls = acc ++ ks ∧ rest = ks.flatMap frame
      ∧ (∀ k ∈ ks, k.crc = chunkCrc k.type k.data)
      ∧ acc.length + ks.length ≤ p.maxChunks.toNat
      ∧ used + dataTotal ks ≤ p.storeCap.toNat := by
  induction n generalizing rest acc used with
  | zero =>
    cases rest with
    | nil =>
      rw [walkLoop_nil] at h
      exact ⟨[], by simpa using h.symm, rfl, by simp, by simpa using hm, by simpa using hu⟩
    | cons b rest => simp [walkLoop] at h
  | succ n ih =>
    by_cases hr : rest = []
    · subst hr
      rw [walkLoop_nil] at h
      exact ⟨[], by simpa using h.symm, rfl, by simp, by simpa using hm, by simpa using hu⟩
    · rw [walkLoop_succ p n hr] at h
      split at h
      · simp at h
      split at h
      · simp at h
      split at h
      · simp at h
      have hf := frame_of_fields (s := rest) (n := (be32 rest).toNat) (by omega) rfl
      have hd : (slice rest 8 (8 + (be32 rest).toNat)).length = (be32 rest).toNat := by
        simp [slice]
        omega
      rcases checkedChunk_cases (Tag.ofBytes (slice rest 4 8))
          (slice rest 8 (8 + (be32 rest).toNat))
          (be32 (slice rest (8 + (be32 rest).toNat) (12 + (be32 rest).toNat))) with
        ⟨hc, hk⟩ | ⟨-, hk⟩
      · rw [hk] at h
        obtain ⟨ks, rfl, hks, hcs, hms, hus⟩ := ih h (by simp; omega) (by omega)
        simp only [List.length_append, List.length_singleton] at hms
        refine ⟨_ :: ks, List.append_assoc .., ?_, ?_, by simp; omega, ?_⟩
        · rw [List.flatMap_cons, ← hks]
          exact hf
        · intro k hkm
          rcases List.mem_cons.1 hkm with rfl | hkm
          · exact hc
          · exact hcs k hkm
        · rw [dataTotal_cons, hd]
          omega
      · simp [hk] at h

/-- An error the walk reports is one of three (60 R124). -/
theorem walkLoop_error {p : Params} {n : Nat} {rest : List Byte} {acc : List Chunk} {used : Nat}
    {e : CmdError} (h : walkLoop p n rest acc used = .error e) :
    e = .plain .truncated ∨ e = .plain .capacity ∨ ∃ a b, e = .mismatch a b := by
  induction n generalizing rest acc used with
  | zero =>
    cases rest with
    | nil => simp at h
    | cons b rest => exact .inl (by simpa [walkLoop] using h.symm)
  | succ n ih =>
    by_cases hr : rest = []
    · simp [hr] at h
    · rw [walkLoop_succ p n hr] at h
      split at h
      · exact .inl (by simpa using h.symm)
      split at h
      · exact .inl (by simpa using h.symm)
      split at h
      · exact .inr (.inl (by simpa using h.symm))
      rcases checkedChunk_cases (Tag.ofBytes (slice rest 4 8))
          (slice rest 8 (8 + (be32 rest).toNat))
          (be32 (slice rest (8 + (be32 rest).toNat) (12 + (be32 rest).toNat))) with
        ⟨-, hk⟩ | ⟨-, hk⟩
      · rw [hk] at h
        exact ih h
      · rw [hk] at h
        exact .inr (.inr ⟨_, _, by simpa using h.symm⟩)

/-- The bound on the number of frames does not matter once it is at least the number of bytes. -/
theorem walkLoop_fuel {p : Params} {n m : Nat} {rest : List Byte} {acc : List Chunk} {used : Nat}
    (hn : rest.length ≤ n) (hm : rest.length ≤ m) :
    walkLoop p n rest acc used = walkLoop p m rest acc used := by
  induction n generalizing m rest acc used with
  | zero =>
    have : rest = [] := List.length_eq_zero_iff.1 (by omega)
    simp [this]
  | succ n ih =>
    by_cases hr : rest = []
    · simp [hr]
    · have := List.length_pos_iff.2 hr
      obtain ⟨m, rfl⟩ : ∃ j, m = j + 1 := ⟨m - 1, by omega⟩
      rw [walkLoop_succ p n hr, walkLoop_succ p m hr]
      have hd : (rest.drop (12 + (be32 rest).toNat)).length ≤ n := by simp; omega
      have hd' : (rest.drop (12 + (be32 rest).toNat)).length ≤ m := by simp; omega
      simp only [fun a u => ih (acc := a) (used := u) hd hd']

/-- All that the walk can accept (43 R109): a container stream of storable records. -/
theorem walk_ok {p : Params} {stream : List Byte} {ks : List Chunk} (h : walk p stream = .ok ks) :
    stream = containerStream ks ∧ storable p ks := by
  unfold walk at h
  split at h
  · simp at h
  · rename_i hs
    simp only [not_or, Nat.not_lt, not_not] at hs
    obtain ⟨ls, rfl, hf, hc, hm, hu⟩ := walkLoop_ok h (by simp) (by simp)
    simp only [List.length_nil, Nat.zero_add] at hm hu ⊢
    refine ⟨?_, hm, hu, hc⟩
    rw [containerStream, ← hf, ← hs.2, slice, List.drop_zero, List.take_append_drop]

/-- An error the walk reports (60 R124). -/
theorem walk_error {p : Params} {stream : List Byte} {e : CmdError} (h : walk p stream = .error e) :
    e = .plain .badSignature ∨ e = .plain .truncated ∨ e = .plain .capacity
      ∨ ∃ a b, e = .mismatch a b := by
  unfold walk at h
  split at h
  · exact .inl (by simpa using h.symm)
  · exact .inr (walkLoop_error h)

/-- A storable record has a length that its field holds, since STORE_CAP is below 2^32 (00 R6). -/
theorem storable_length {p : Params} {ks : List Chunk} (h : storable p ks) {k : Chunk} (hk : k ∈ ks) :
    k.data.length < 2 ^ 32 :=
  Nat.lt_of_le_of_lt (Nat.le_trans (data_length_le_dataTotal hk) h.2.1) p.storeCap.isLt

/-- The walk behind a signature and a run of storable frames goes on with what follows them. -/
theorem walk_frames {p : Params} {ks : List Chunk} (h : storable p ks) (rest : List Byte) :
    walk p (signature ++ ks.flatMap frame ++ rest) =
      walkLoop p (rest.length + 1) rest ks (dataTotal ks) := by
  have hlen : (signature ++ ks.flatMap frame ++ rest).length
      = 8 + (12 * ks.length + dataTotal ks) + rest.length := by
    simp only [List.length_append, signature_length, frames_length]
  have hsig : slice (signature ++ ks.flatMap frame ++ rest) 0 8 = signature := by
    simp [slice, signature]
  have hdrop : (signature ++ ks.flatMap frame ++ rest).drop 8 = ks.flatMap frame ++ rest := by
    simp [signature]
  rw [walk, if_neg (by rw [hsig, hlen]; simp; omega), hdrop,
    walkLoop_fuel (m := (rest.length + 1) + (12 * ks.length + dataTotal ks - ks.length) + ks.length)
      (by rw [hlen, List.length_append, frames_length]; omega)
      (by rw [List.length_append, frames_length]; omega),
    walkLoop_frames _ rest (fun k hk => storable_length h hk) h.2.2 (by simpa using h.1)
      (by simpa using h.2.1)]
  simpa using walkLoop_fuel (by omega) (by omega)

end Sys2Proof.Machine
end

