-- ==== Sys2Proof/Laws/Exec.lean ====
section
/-! SUPPORT. What a command can do, said once for all commands; what a step can do. -/

namespace Sys2Proof.Machine

/-- The ways a command ends (00 R14): the model fault of its SRC range, an error raised on the state before it, or
success with pending writes. -/
inductive Ends (i : Instr) (s : State) : Result → Prop where
  | unwritten (hr : commandReadsSource i = true) (h : s.srcUnwritten) :
      Ends i s (.fault .unwrittenSource)
  | error (e : CmdError) (hc : e.code ∈ commandRaises i)
      (hi : e.info = .nothing ∨ e.code = .checksumMismatch) : Ends i s (raise e s)
  | success (s' : State) : Ends i s (succeed s')

/-- A command whose SRC range is read ends as its rest does, or in BOUNDS or the model fault. -/
theorem Ends.withSource {i : Instr} {s : State} {k : List Byte → Result}
    (hr : commandReadsSource i = true) (hb : .bounds ∈ commandRaises i)
    (h : ∀ bs, s.srcHolds bs → Ends i s (k bs)) : Ends i s (withSource s k) := by
  by_cases hl : s.params.srcSize.toNat < s.argAddr.toNat + s.argLen.toNat
  · rw [withSource_of_bounds hl]
    exact .error _ hb (.inl rfl)
  · by_cases hu : ∃ j, j < s.argLen.toNat ∧ s.src.read (s.argAddr.toNat + j) = none
    · obtain ⟨j, hj, hn⟩ := hu
      rw [withSource_of_unwritten (by omega) hj hn]
      exact .unwritten hr ⟨by omega, j, hj, hn⟩
    · have hr' : s.src.readRange s.argAddr.toNat s.argLen.toNat ≠ none := fun hn =>
        hu (Memory.readRange_eq_none.1 hn)
      obtain ⟨bs, hbs⟩ := Option.ne_none_iff_exists'.1 hr'
      have hs : s.srcHolds bs := by
        obtain ⟨h1, h2⟩ := Memory.readRange_eq_some.1 hbs
        exact ⟨h1, by omega, h2⟩
      rw [withSource_of_srcHolds hs]
      exact h bs hs

/-- A command that writes DST ends in BOUNDS or success. -/
theorem Ends.emitBytes {i : Instr} {s : State} (hb : .bounds ∈ commandRaises i) (out : List Byte) :
    Ends i s (emitBytes s out) := by
  rcases emitBytes_cases s out with ⟨-, h⟩ | ⟨-, h⟩
  · exact h ▸ .error _ hb (.inl rfl)
  · exact h ▸ .success _

/-- A command that needs STG ends as its rest does, or in STAGE_EMPTY. -/
theorem Ends.withStage {i : Instr} {s : State} {k : Chunk → Result}
    (hb : .stageEmpty ∈ commandRaises i) (h : ∀ c, Ends i s (k c)) : Ends i s (withStage s k) := by
  rcases withStage_cases s k with ⟨-, h'⟩ | ⟨c, -, h'⟩
  · exact h' ▸ .error _ hb (.inl rfl)
  · exact h' ▸ h c

/-- A command that stages a record of CONT ends in CAPACITY or success. -/
theorem Ends.stageChunk {i : Instr} {s : State} (hb : .capacity ∈ commandRaises i) (s' : State)
    (k : Chunk) : Ends i s (stageChunk s s' k) := by
  rcases stageChunk_cases s s' k with ⟨-, h⟩ | ⟨-, h⟩
  · exact h ▸ .error _ hb (.inl rfl)
  · exact h ▸ .success _

/-- Every command ends in one of these ways. -/
theorem exec_ends (i : Instr) (s : State) : Ends i s (exec i s) := by
  cases i with
  | nop => exact .success _
  | softReset => exact .success _
  | crcInit => exact .success _
  | crcByte => exact .success _
  | crcBuf => exact .withSource rfl (by decide) fun _ _ => .success _
  | typeFromStr =>
    refine .withSource rfl (by decide) fun bs _ => ?_
    split
    · exact .error _ (by decide) (.inl rfl)
    · split
      · exact .error _ (by decide) (.inl rfl)
      · exact .success _
  | chunkNew =>
    refine .withSource rfl (by decide) fun d _ => ?_
    split
    · exact .error _ (by decide) (.inl rfl)
    · exact .success _
  | chunkParse =>
    refine .withSource rfl (by decide) fun f _ => ?_
    split
    · rename_i e he
      rcases parseFrame_error he with rfl | rfl | ⟨a, b, rfl⟩
      · exact .error _ (by decide) (.inl rfl)
      · exact .error _ (by decide) (.inl rfl)
      · exact .error _ (by simp [commandRaises, CmdError.mismatch]) (.inr rfl)
    · exact .success _
  | chunkEmit => exact .withStage (by decide) fun _ => .emitBytes (by decide) _
  | chunkDataOut => exact .withStage (by decide) fun _ => .emitBytes (by decide) _
  | contClear => exact .success _
  | contParse =>
    refine .withSource rfl (by decide) fun f _ => ?_
    split
    · rename_i e he
      rcases walk_error he with rfl | rfl | rfl | ⟨a, b, rfl⟩
      · exact .error _ (by decide) (.inl rfl)
      · exact .error _ (by decide) (.inl rfl)
      · exact .error _ (by decide) (.inl rfl)
      · exact .error _ (by simp [commandRaises, CmdError.mismatch]) (.inr rfl)
    · exact .success _
  | contAppend =>
    refine .withStage (by decide) fun k => ?_
    split
    · exact .error _ (by decide) (.inl rfl)
    · split
      · exact .error _ (by decide) (.inl rfl)
      · exact .success _
  | contRemove =>
    show Ends _ s (execContRemove s)
    unfold execContRemove
    split
    · exact .error _ (by decide) (.inl rfl)
    · split
      · exact .error _ (by decide) (.inl rfl)
      · exact .stageChunk (by decide) _ _
  | contFind =>
    show Ends _ s (execContFind s)
    unfold execContFind
    split <;> exact .success _
  | contGet =>
    show Ends _ s (execContGet s)
    unfold execContGet
    split
    · exact .error _ (by decide) (.inl rfl)
    · exact .stageChunk (by decide) _ _
  | contEmit => exact .emitBytes (by decide) _

/-- BUSY = 1 and no host turn left: the sequencer's step (10 R46). -/
theorem agentTurn_sequencer {s : State} (hb : s.busy = true) (hd : s.delay = 0) :
    agentTurn s = sequencerTurn s := by
  rw [agentTurn, if_pos hb, hd]

/-- BUSY = 1 and a host turn left (70 R142). -/
theorem agentTurn_waiting {s : State} {d : Nat} (hb : s.busy = true) (hd : s.delay = d + 1) :
    agentTurn s = hostTurn { s with delay := d } := by
  rw [agentTurn, if_pos hb, hd]

/-- BUSY = 0: the sequencer has no step (10 R46). -/
theorem agentTurn_idle {s : State} (hb : s.busy = false) : agentTurn s = hostTurn s := by
  rw [agentTurn, if_neg (by simp [hb])]

/-- The reset input is high: the hardware reset (70 R136). -/
theorem step_reset {s : State} {l : List Bool} (h : s.resetIn = true :: l) :
    step s = .next { s.hardReset with resetIn := l } := by
  rw [step, turn, h]

/-- The reset input is low: an agent's turn. -/
theorem step_low {s : State} (h : s.resetLow) : step s = agentTurn s.afterLevel := by
  rw [step, turn]
  cases hr : s.resetIn with
  | nil =>
    have : s.afterLevel = s := by rw [State.afterLevel, hr, List.tail_nil, ← hr]
    rw [this]
  | cons b l =>
    obtain rfl : b = false := by simpa [State.resetLow, hr] using h
    rw [State.afterLevel, hr, List.tail_cons]

/-- All that a step can do: the reset, the sequencer's step, or the host's turn (00 R17, 70 R136). -/
theorem step_cases (s : State) :
    (∃ l, s.resetIn = true :: l ∧ step s = .next { s.hardReset with resetIn := l })
    ∨ (s.sequencerNext ∧ step s = sequencerTurn s.afterLevel)
    ∨ (s.resetLow ∧ ∃ d, s.busy = true ∧ s.delay = d + 1
        ∧ step s = hostTurn { s.afterLevel with delay := d })
    ∨ (s.resetLow ∧ s.busy = false ∧ step s = hostTurn s.afterLevel) := by
  by_cases hl : s.resetLow
  · rcases Bool.eq_false_or_eq_true s.busy with hb | hb
    · rcases Nat.eq_zero_or_eq_succ_pred s.delay with hd | hd
      · exact .inr (.inl ⟨⟨hl, hb, hd⟩,
          (step_low hl).trans (agentTurn_sequencer (s := s.afterLevel) hb hd)⟩)
      · exact .inr (.inr (.inl ⟨hl, _, hb, hd,
          (step_low hl).trans (agentTurn_waiting (s := s.afterLevel) hb hd)⟩))
    · exact .inr (.inr (.inr ⟨hl, hb,
        (step_low hl).trans (agentTurn_idle (s := s.afterLevel) hb)⟩))
  · left
    match hr : s.resetIn, hl with
    | [], hl => exact absurd (by simp [State.resetLow, hr]) hl
    | false :: _, hl => exact absurd (by simp [State.resetLow, hr]) hl
    | true :: l, _ => exact ⟨l, rfl, step_reset hr⟩

/-- The sequencer's step ends as a command does, or as an illegal word. -/
theorem sequencerTurn_cases (s : State) :
    (∃ i, decode s.latch = .command i ∧ sequencerTurn s = exec i s)
    ∨ ((∃ why, decode s.latch = .illegal why)
      ∧ sequencerTurn s = raise (.plain .illegalCommand) s) := by
  unfold sequencerTurn
  cases h : decode s.latch with
  | command i => exact .inl ⟨i, rfl, rfl⟩
  | illegal why => exact .inr ⟨⟨why, rfl⟩, rfl⟩

/-- All that the host's turn can do to the block: nothing; a cell of SRC written; a register written, which for
CMD latches a command (20 R51). In each case only the host moves on besides. -/
inductive HostEffect (s : State) : State → Prop where
  | nothing (h : HostAgent) : HostEffect s { s with host := h }
  | cell (h : HostAgent) (i : Nat) (b : Byte) (hi : i < s.params.srcSize.toNat) :
      HostEffect s { s with src := s.src.write i b, host := h }
  | register (h : HostAgent) (r : RegName) (w : Word) (s' : State) (hw : regWrite s r w = some s') :
      HostEffect s { s' with host := h }

/-- An access that is answered has one of these effects. -/
theorem busAccess_effect {s s' : State} {a : Access} {reply : BusReply}
    (h : busAccess s a = .ok (s', reply)) (g : HostAgent) : HostEffect s { s' with host := g } := by
  match a, h with
  | .read .reg w off, h =>
    simp only [busAccess] at h
    split at h
    · simp at h
    · simp only [Except.ok.injEq, Prod.mk.injEq] at h
      exact h.1 ▸ .nothing g
  | .write .reg w off data, h =>
    simp only [busAccess] at h
    split at h
    · simp at h
    · split at h
      · simp at h
      · rename_i hw
        simp only [Except.ok.injEq, Prod.mk.injEq] at h
        exact .register g _ data _ (h.1 ▸ hw)
  | .read .src w i, h =>
    simp only [busAccess] at h
    split at h
    · simp at h
    · split at h
      · simp at h
      · simp only [Except.ok.injEq, Prod.mk.injEq] at h
        exact h.1 ▸ .nothing g
  | .write .src w i data, h =>
    simp only [busAccess, cellAccess] at h
    split at h
    · simp at h
    · rename_i a ha
      split at ha
      · rename_i hb
        simp only [Except.ok.injEq, Prod.mk.injEq] at h ha
        exact h.1 ▸ .cell g a _ (ha ▸ hb.2)
      · simp at ha
  | .read .dst w i, h =>
    simp only [busAccess] at h
    split at h
    · simp at h
    · split at h
      · simp at h
      · simp only [Except.ok.injEq, Prod.mk.injEq] at h
        exact h.1 ▸ .nothing g
  | .write .dst w i data, h => simp [busAccess] at h

/-- A host's turn that has a next state has one of these effects; a register is written only while BUSY = 0
(70 R139). -/
theorem hostTurn_effect {s t : State} (h : hostTurn s = .next t) :
    HostEffect s t ∧ (s.busy = true → ∃ g, t = { s with host := g }) := by
  unfold hostTurn at h
  split at h
  · simp only [Host.Outcome.next.injEq] at h
    exact h ▸ ⟨.nothing s.host, fun _ => ⟨s.host, rfl⟩⟩
  · simp only [Host.Outcome.next.injEq] at h
    exact h ▸ ⟨.nothing s.host, fun _ => ⟨s.host, rfl⟩⟩
  · simp only [Host.Outcome.next.injEq] at h
    exact h ▸ ⟨.nothing _, fun _ => ⟨_, rfl⟩⟩
  · simp only [Host.Outcome.next.injEq] at h
    exact h ▸ ⟨.nothing _, fun _ => ⟨_, rfl⟩⟩
  · split at h
    · simp at h
    · rename_i a _ _ s' reply ha
      simp only [Host.Outcome.next.injEq] at h
      unfold guardedAccess at ha
      split at ha
      · simp at ha
      · rename_i hg
        subst h
        refine ⟨busAccess_effect ha _, fun hb => ?_⟩
        obtain rfl : a = .readStatus := by
          by_contra hne
          exact hg ⟨hb, hne⟩
        have : s' = s := by
          simp [Access.readStatus, Access.regRead, busAccess, regAccess, RegName.offset,
            RegName.atOffset, RegName.all] at ha
          exact ha.1.symm
        exact ⟨_, by rw [this]⟩

/-- The host's step with BUSY = 0. -/
theorem step_of_hostNext {s : State} {op : HostOp} (h : s.hostNext op) :
    step s = hostTurn s.afterLevel :=
  (step_low h.1).trans (agentTurn_idle (s := s.afterLevel) h.2.1)

/-- While BUSY = 0 the host's turn starts from the state with the level of the reset input consumed. -/
theorem State.hostTurnTaken_of_idle {s : State} (hb : s.busy = false) : s.hostTurnTaken = s.afterLevel := by
  rw [State.hostTurnTaken, if_neg (by simp [hb])]
  rfl

/-- A step that is the host's, with BUSY = 0 or with host turns left. -/
theorem step_of_hostMoves {s : State} (h : s.hostMoves) : step s = hostTurn s.hostTurnTaken := by
  rw [step_low h.1]
  by_cases hb : s.busy = true
  · obtain ⟨d, hd⟩ := Nat.exists_eq_succ_of_ne_zero (h.2 hb)
    rw [agentTurn_waiting (s := s.afterLevel) hb hd, State.hostTurnTaken, if_pos hb, hd]
    rfl
  · rw [Bool.not_eq_true] at hb
    rw [agentTurn_idle (s := s.afterLevel) hb, State.hostTurnTaken_of_idle hb]

/-- The host's step with BUSY = 0 for a bus access that is answered (20 R51). -/
theorem step_of_access_ok {s s' : State} {a : Access} {reply : BusReply}
    (h : s.hostNext (.access a)) (ha : busAccess s.afterLevel a = .ok (s', reply)) :
    step s = .next { s' with host := s'.host.receive reply } := by
  rw [step_of_hostNext h, hostTurn]
  simp only [State.afterLevel_host, h.2.2]
  rw [guardedAccess, if_neg (by simp [h.2.1]), ha]

/-- The host's step with BUSY = 0 for a bus access that is a model fault (20 R52 to R55). -/
theorem step_of_access_error {s : State} {a : Access} {f : Fault}
    (h : s.hostNext (.access a)) (ha : busAccess s.afterLevel a = .error f) : step s = .fault f := by
  rw [step_of_hostNext h, hostTurn]
  simp only [State.afterLevel_host, h.2.2]
  rw [guardedAccess, if_neg (by simp [h.2.1]), ha]

/-- The sequencer's step. -/
theorem step_of_sequencerNext {s : State} (h : s.sequencerNext) :
    step s = sequencerTurn s.afterLevel :=
  (step_low h.1).trans (agentTurn_sequencer (s := s.afterLevel) h.2.1 h.2.2)

/-- A register stands at its offset (10 R23). -/
@[simp] theorem RegName.atOffset_offset (r : RegName) : RegName.atOffset r.offset = some r := by
  cases r <;> rfl

/-- A register found at an offset has that offset. -/
theorem RegName.offset_of_atOffset {off : Nat} {r : RegName} (h : RegName.atOffset off = some r) :
    r.offset = off := by
  unfold RegName.atOffset at h
  simpa using List.find?_some h

end Sys2Proof.Machine
end

