-- ==== Sys2Proof/Laws/PerInstr.lean ====
section
/-! SUPPORT. Facts about each command as syntax. -/

namespace Sys2Proof.Laws

/-- Decoding what is encoded gives the command back, and its word is well-formed (30 R70, R75). -/
def Encoding.Statement (i : Instr) : Prop :=
  decode (encode i) = .command i ∧ wordWellFormed (encode i) = true ∧ i.wellFormed = true

theorem Encoding.nop : Encoding.Statement .nop := ⟨by decide, by decide, rfl⟩
theorem Encoding.softReset : Encoding.Statement .softReset := ⟨by decide, by decide, rfl⟩
theorem Encoding.crcInit : Encoding.Statement .crcInit := ⟨by decide, by decide, rfl⟩
theorem Encoding.crcByte : Encoding.Statement .crcByte := ⟨by decide, by decide, rfl⟩
theorem Encoding.crcBuf : Encoding.Statement .crcBuf := ⟨by decide, by decide, rfl⟩
theorem Encoding.typeFromStr : Encoding.Statement .typeFromStr := ⟨by decide, by decide, rfl⟩
theorem Encoding.chunkNew : Encoding.Statement .chunkNew := ⟨by decide, by decide, rfl⟩
theorem Encoding.chunkParse : Encoding.Statement .chunkParse := ⟨by decide, by decide, rfl⟩
theorem Encoding.chunkEmit : Encoding.Statement .chunkEmit := ⟨by decide, by decide, rfl⟩
theorem Encoding.chunkDataOut : Encoding.Statement .chunkDataOut := ⟨by decide, by decide, rfl⟩
theorem Encoding.contClear : Encoding.Statement .contClear := ⟨by decide, by decide, rfl⟩
theorem Encoding.contParse : Encoding.Statement .contParse := ⟨by decide, by decide, rfl⟩
theorem Encoding.contAppend : Encoding.Statement .contAppend := ⟨by decide, by decide, rfl⟩
theorem Encoding.contRemove : Encoding.Statement .contRemove := ⟨by decide, by decide, rfl⟩
theorem Encoding.contFind : Encoding.Statement .contFind := ⟨by decide, by decide, rfl⟩
theorem Encoding.contGet : Encoding.Statement .contGet := ⟨by decide, by decide, rfl⟩
theorem Encoding.contEmit : Encoding.Statement .contEmit := ⟨by decide, by decide, rfl⟩

end Sys2Proof.Laws
end

