-- ==== Sys2Proof/Tests/Slice0.lean ====
section
/-! SUPPORT. The model's own tests. Every expected value is written out from the spec (95_test_vectors.md, named V-…,
or the rule cited); the witnesses show states that meet the hypotheses of the statements. -/

namespace Sys2Proof.Tests

open Sys2Proof.Machine

-- One theorem after the other: many kernel evaluations at once ask for more threads than the check's memory gives.
set_option Elab.async false

/-! ### Builders -/

/-- The message of 95 § Conventions, 42 bytes. -/
def msg : List Byte :=
  [0x54, 0x68, 0x69, 0x73, 0x20, 0x69, 0x73, 0x20, 0x77, 0x68, 0x65, 0x72, 0x65, 0x20,
   0x79, 0x6F, 0x75, 0x72, 0x20, 0x73, 0x65, 0x63, 0x72, 0x65, 0x74, 0x20, 0x6D, 0x65,
   0x73, 0x73, 0x61, 0x67, 0x65, 0x20, 0x77, 0x69, 0x6C, 0x6C, 0x20, 0x62, 0x65, 0x21]

/-- "RuSt". -/
def rust : List Byte := [0x52, 0x75, 0x53, 0x74]

/-- The frame FR of 95 § Conventions but for its last byte, which is `last` (0x4E in FR, 0x4D in BAD). -/
def fr (last : Byte) : List Byte := [0x00, 0x00, 0x00, 0x2A] ++ rust ++ msg ++ [0xAB, 0xD1, 0xD8, last]

/-- F2 of 95 § Conventions. -/
def f2 : List Byte :=
  [0x00, 0x00, 0x00, 0x2A] ++ rust ++ msg ++ [0x3F, 0x3F, 0x49, 0x93, 0x86, 0x42]

/-- SIG of 95 § Conventions. -/
def sig : List Byte := [0x89, 0x50, 0x4E, 0x47, 0x0D, 0x0A, 0x1A, 0x0A]

/-- IEND0 of 95 § Conventions. -/
def iend0 : List Byte := [0x00, 0x00, 0x00, 0x00, 0x49, 0x45, 0x4E, 0x44, 0xAE, 0x42, 0x60, 0x82]

/-- P3SRC of 95 § Conventions. -/
def p3src : List Byte :=
  sig ++ [0x00, 0x00, 0x00, 0x0D, 0x49, 0x48, 0x44, 0x52, 0x00, 0x00, 0x00, 0x01, 0x00, 0x00,
   0x00, 0x01, 0x08, 0x02, 0x00, 0x00, 0x00, 0x90, 0x77, 0x53, 0xDE] ++ iend0

/-- The IHDR record of P3SRC. -/
def ihdr : Chunk :=
  ⟨⟨0x49, 0x48, 0x44, 0x52⟩,
   [0x00, 0x00, 0x00, 0x01, 0x00, 0x00, 0x00, 0x01, 0x08, 0x02, 0x00, 0x00, 0x00], 0x907753DE⟩

/-- The IEND record of P3SRC. -/
def iend : Chunk := ⟨⟨0x49, 0x45, 0x4E, 0x44⟩, [], 0xAE426082⟩

/-- The "RuSt" record with data "a" (V-L1-18). -/
def rustA : Chunk := ⟨⟨0x52, 0x75, 0x53, 0x74⟩, [0x61], 0xC70C46CD⟩

/-- The "RuSt" record with data "b" (V-L2-81). -/
def rustB : Chunk := ⟨⟨0x52, 0x75, 0x53, 0x74⟩, [0x62], 0x5E051777⟩

/-- Small capacities: SRC_SIZE 16, DST_SIZE 16, STG_CAP 4, MAX_CHUNKS 2, STORE_CAP 6. -/
def small : Params := ⟨16, 16, 4, 2, 6⟩

/-- After reset, with `bytes` written to SRC from 0 and the SRC range set to them. -/
def withSrc (p : Params) (bytes : List Byte) : State :=
  { State.resetWith p with
    src := Memory.writeRange [] 0 bytes
    argLen := BitVec.ofNat 32 bytes.length }

/-- After reset with small capacities: SRC[12..15] = `bytes`, the SRC range at the end of the buffer. -/
def atEnd (bytes : List Byte) : State :=
  { State.resetWith small with
    src := Memory.writeRange [] 12 bytes
    argAddr := 12
    argLen := 4 }

/-- After reset with small capacities and a SRC range one byte past the buffer. -/
def pastEnd : State := { State.resetWith small with argAddr := 12, argLen := 5 }

/-- After reset with small capacities and a SRC range with an unwritten last cell. -/
def withHole : State :=
  { State.resetWith small with src := [(12, 0x61), (13, 0x61), (14, 0x61)], argAddr := 12, argLen := 4 }

/-- The state holds CONT `ks`. -/
def withCont (s : State) (ks : List Chunk) : State := { s with cont := ks }

/-- The state holds `k` in STG, its declared length right. -/
def withStg (s : State) (k : Chunk) : State := s.loadStg k k.len

/-- A host whose program is one access, about to make it. -/
def hostAt (s : State) (op : HostOp) : State := s.withProgram [op]

/-- The step that runs a command word. -/
def run (w : Nat) (s : State) : Result := step (s.withFetchWord 32 w)

/-- The outcome is a next state with a property. -/
def ends (o : Result) (p : State → Bool) : Bool :=
  match o with
  | .next t => p t
  | _ => false

/-- The outcome is a fault. -/
def faultsWith (o : Result) (f : Fault) : Bool :=
  match o with
  | .fault g => g == f
  | _ => false

/-- The error code and STATUS read these values. -/
def reads (t : State) (errcode status : Word) : Bool :=
  regRead t .errcode == errcode && regRead t .status == status

/-- The bytes of DST from `a` are `bytes`. -/
def dstIs (t : State) (a : Nat) (bytes : List Byte) : Bool :=
  t.dst.readRange a bytes.length == some bytes

/-! ### Well-formedness: an ill-formed term for each check -/

/-- 30 R70: bits 31:8 must be zero. -/
theorem test_wellFormed_refuses_reserved_bits :
    wordWellFormed 0x00000100 = false ∧ wordWellFormed 0x80000010 = false := by decide

/-- 30 R76: no opcode 0x02, 0x47. -/
theorem test_wellFormed_refuses_unknown_opcode :
    wordWellFormed 0x00000002 = false ∧ wordWellFormed 0x00000047 = false := by decide

/-- 30 R75: the words of two commands. -/
theorem test_wellFormed_accepts_encodings :
    wordWellFormed 0x00000000 = true ∧ wordWellFormed 0x00000046 = true := by decide

/-- 00 R6: SRC_SIZE is at least 1. -/
theorem test_params_refuse_zero_source :
    Params.valid ⟨0, 16, 4, 2, 6⟩ = false := by decide

/-- 00 R6: DST_SIZE is at least 1. -/
theorem test_params_refuse_zero_destination :
    Params.valid ⟨16, 0, 4, 2, 6⟩ = false := by decide

/-- 00 R6: MAX_CHUNKS is at most 0xFFFFFFFE. -/
theorem test_params_refuse_all_chunks :
    Params.valid ⟨16, 16, 4, 0xFFFFFFFF, 6⟩ = false := by decide

/-- 00 R6: the recommended values are allowed. -/
theorem test_params_accept_recommended :
    Params.recommended.valid = true := by decide

/-- 30 R78: a branch needs its label. -/
theorem test_script_refuses_missing_label :
    assemble [.bz 1 7, .halt] = none ∧ assemble [.bnz 1 7, .label 8] = none := by decide +kernel

/-- 30 R78: a label names one position. -/
theorem test_script_refuses_label_twice :
    assemble [.label 7, .halt, .label 7] = none := by decide +kernel

/-- 30 R79: SETTYPE takes four characters. -/
theorem test_script_refuses_short_type :
    assemble [.setType "RuS"] = none := by decide +kernel

/-- 30 R79: texts are ASCII (log 17). -/
theorem test_script_refuses_other_characters :
    assemble [.srcs 0 "\u00e9"] = none ∧ assemble [.setType "Ru\u00e9t"] = none := by decide +kernel

/-! ### Decoding: the word of every command, written out from 30 R70 and R75 -/

/-- Every row of 30 R75, bit by bit: bits 31:8 zero, the opcode in bits 7:0. -/
theorem test_decode_words :
    [0b00000000, 0b00000001, 0b00010000, 0b00010001, 0b00010010, 0b00100000, 0b00110000, 0b00110001,
      0b00110010, 0b00110011, 0b01000000, 0b01000001, 0b01000010, 0b01000011, 0b01000100, 0b01000101,
      0b01000110].map (decodeTableWord 32) =
    [Instr.nop, .softReset, .crcInit, .crcByte, .crcBuf, .typeFromStr, .chunkNew, .chunkParse,
      .chunkEmit, .chunkDataOut, .contClear, .contParse, .contAppend, .contRemove, .contFind, .contGet,
      .contEmit].map some := by decide

/-- V-L2-88: the words that 30 R76 calls ILLEGAL. -/
theorem test_decode_refuses_by_name :
    [0x00000100, 0x00000002, 0x00000013, 0x00000047, 0x000000FF, 0x80000010].map decode =
    [.illegal .reservedBits, .illegal .unknownOpcode, .illegal .unknownOpcode, .illegal .unknownOpcode,
      .illegal .unknownOpcode, .illegal .reservedBits] := by decide

/-- Right after reset the placed word is what the next step runs; none is refused or faults. -/
theorem test_first_step_runs_the_word :
    [0x00, 0x01, 0x10, 0x11, 0x12, 0x20, 0x30, 0x31, 0x32, 0x33, 0x40, 0x41, 0x42, 0x43, 0x44, 0x45,
      0x46].all (fun w => ends (run w State.reset) (fun t => t.done && !t.busy)) = true := by decide +kernel

/-! ### The CRC function -/

/-- V-L2-04: the check string "123456789". -/
theorem test_crc_check_value :
    crc32 [0x31, 0x32, 0x33, 0x34, 0x35, 0x36, 0x37, 0x38, 0x39] = 0xCBF43926 := by decide +kernel

/-- V-L2-07, 40 R85: the one CRC the source prints, 2882656334. -/
theorem test_crc_source_value :
    crc32 (rust ++ msg) = 2882656334 := by decide +kernel

/-- 40 R84. -/
theorem test_crc_table_entries :
    [0x00, 0x01, 0x02, 0x80, 0x96, 0xFF].map crcTable =
    [0x00000000, 0x77073096, 0xEE0E612C, 0xEDB88320, 0x196C3671, 0x2D02EF8D] := by decide +kernel

/-- V-L2-12. -/
theorem test_crc_residue :
    crcFold 0xFFFFFFFF [0x31, 0x32, 0x33, 0x34, 0x35, 0x36, 0x37, 0x38, 0x39, 0x26, 0x39, 0xF4, 0xCB] =
    0xDEBB20E3 := by decide +kernel

/-! ### The registers -/

/-- V-L2-26 to V-L2-41. -/
theorem test_tflags :
    [0x52755374, 0x52757374, 0x49484452, 0x74455874, 0x73524742, 0x61626364, 0x72755374, 0x72755354,
      0x52753174, 0x40415A5B, 0x60617A7B, 0x00000000, 0xFFFFFFFF].map (fun w => tflags (Tag.ofWord w)) =
    [0x37, 0x25, 0x1F, 0x3B, 0x1B, 0x21, 0x33, 0x13, 0x24, 0x1C, 0x20, 0x1C, 0x20] := by decide +kernel

/-- V-L1-14. -/
theorem test_signature_registers :
    [RegName.sigHi, .sigLo, .id].map (regRead State.reset) = [0x89504E47, 0x0D0A1A0A, 0x504E4743] := by decide +kernel

/-- 10 R23, R39: one register at every multiple of 4 below 0x74, none elsewhere. -/
theorem test_register_map_is_dense :
    ((List.range 0x80).filter (fun off => (RegName.atOffset off).isSome)) =
    (List.range 29).map (4 * ·) := by decide +kernel

/-- V-L2-20. -/
theorem test_crc_in_keeps_low_byte :
    ends (step (hostAt State.reset (.access (.regWrite 0x2C 0x00000100)))) (fun t => regRead t .crcIn == 0) = true := by decide +kernel

/-- 60 R123: the code of every kind. -/
theorem test_error_codes :
    [ErrCode.none, .badSignature, .truncated, .checksumMismatch, .invalidFormat, .invalidEncoding, .notFound,
      .internal, .invalidArgument, .illegalCommand, .bounds, .capacity, .stageEmpty, .indexRange].map
        (fun e => regRead (State.reset.complete e) .errcode) = (List.range 14).map (BitVec.ofNat 32) := by decide +kernel

/-! ### The commands -/

/-- V-L2-90. -/
theorem test_nop_keeps_found_and_stage :
    ends (run 0x00 (withStg (withCont { State.reset with found := true } [ihdr]) rustA)) (fun t => reads t 0x00 0x1A) = true := by decide +kernel

/-- V-L2-91. -/
theorem test_soft_reset_keeps_buffers :
    ends (run 0x01 { withStg (withCont State.reset [ihdr]) rustA with
        src := [(0, 0x89)], dst := [(3, 0x50)], typeReg := 0x52755374, index := 1, crcState := 7 })
      (fun t => reads t 0x00 0x02 && t.cont == [] && t.stg == none && t.src == [(0, 0x89)]
        && t.dst == [(3, 0x50)]
        && [RegName.cmd, .cntCount, .type, .tflags, .index, .crcState, .crcValue].map (regRead t)
          == [0, 0, 0, 0x1C, 0, 0xFFFFFFFF, 0]) = true := by decide +kernel

/-- V-L2-16, from an engine in use. -/
theorem test_crc_init :
    ends (run 0x10 { State.reset with crcState := 0x12345678 })
      (fun t => reads t 0x00 0x02 && regRead t .crcState == 0xFFFFFFFF && regRead t .crcValue == 0) = true := by decide +kernel

/-- V-L2-17. -/
theorem test_crc_byte :
    ends (run 0x11 { State.reset with crcIn := 0x31 }) (fun t => regRead t .crcState == 0x7C231048) = true := by decide +kernel

/-- V-L2-18: the second half of a stream. -/
theorem test_crc_buf_streams :
    ends (run 0x12 { withSrc Params.recommended [0x32, 0x33, 0x34, 0x35, 0x36, 0x37, 0x38, 0x39] with
        crcState := 0x7C231048 })
      (fun t => regRead t .crcState == 0x340BC6D9 && regRead t .crcValue == 0xCBF43926) = true := by decide +kernel

/-- V-L2-24. -/
theorem test_crc_buf_does_not_wrap :
    ends (run 0x12 { State.reset with argAddr := 0xFFFFFFFF, argLen := 2 })
      (fun t => reads t 0x0A 0x06 && regRead t .crcState == 0xFFFFFFFF) = true := by decide +kernel

/-- V-L1-03: "Rust". -/
theorem test_type_from_str_takes_reserved_bit :
    ends (run 0x20 (withSrc Params.recommended [0x52, 0x75, 0x73, 0x74]))
      (fun t => reads t 0x00 0x02 && regRead t .type == 0x52757374 && regRead t .tflags == 0x25) = true := by decide +kernel

/-- V-L1-05 and V-L1-04: "Ru1t" and "RuS". -/
theorem test_type_from_str_refuses_digit :
    ends (run 0x20 (withSrc Params.recommended [0x52, 0x75, 0x31, 0x74]))
      (fun t => reads t 0x04 0x06 && regRead t .type == 0) = true
    ∧ ends (run 0x20 (withSrc Params.recommended [0x52, 0x75, 0x53])) (fun t => reads t 0x04 0x06) = true := by decide +kernel

/-- V-L1-10. -/
theorem test_chunk_new :
    ends (run 0x30 { withSrc Params.recommended msg with typeReg := 0x52755374 })
      (fun t => reads t 0x00 0x12 && [RegName.stgType, .stgLen, .stgDeclLen, .stgCrc].map (regRead t)
        == [0x52755374, 0x2A, 0x2A, 0xABD1D84E]) = true := by decide +kernel

/-- V-L2-48, with STG_CAP = 4: 4 bytes fit, 5 do not. -/
theorem test_chunk_new_capacity :
    ends (run 0x30 (withSrc small [0, 0, 0, 0])) (fun t => reads t 0x00 0x12) = true
    ∧ ends (run 0x30 (withSrc small [0, 0, 0, 0, 0])) (fun t => reads t 0x0B 0x06) = true := by decide +kernel

/-- V-L2-51. -/
theorem test_chunk_parse_is_permissive :
    ends (run 0x31 (withSrc Params.recommended f2))
      (fun t => reads t 0x00 0x12 && [RegName.stgType, .stgLen, .stgDeclLen, .stgCrc].map (regRead t)
        == [0x52755374, 0x2C, 0x2A, 0x49938642]) = true := by decide +kernel

/-- V-L1-08. -/
theorem test_chunk_parse_checksum :
    ends (run 0x31 (withSrc Params.recommended (fr 0x4D)))
      (fun t => reads t 0x03 0x06 && t.stg == none
        && regRead t .errStored == 0xABD1D84D && regRead t .errComputed == 0xABD1D84E) = true := by decide +kernel

/-- V-L2-58: the frame ends at the end of the buffer. -/
theorem test_chunk_emit :
    ends (run 0x32 (withStg { State.resetWith ⟨16, 64, 16, 2, 16⟩ with dstAddr := 52 } iend))
      (fun t => reads t 0x00 0x12 && regRead t .resLen == 0x0C && dstIs t 52 iend0) = true := by decide +kernel

/-- V-L2-57. -/
theorem test_chunk_emit_bounds :
    ends (run 0x32 (withStg { State.resetWith ⟨16, 64, 16, 2, 16⟩ with dstAddr := 53 } iend))
      (fun t => reads t 0x0A 0x16 && regRead t .resLen == 0 && t.dst == []) = true := by decide +kernel

/-- V-L1-07, after its CHUNK_PARSE. -/
theorem test_chunk_data_out :
    ends (run 0x33 (withStg State.reset ⟨⟨0x52, 0x75, 0x53, 0x74⟩, msg, 0xABD1D84E⟩))
      (fun t => reads t 0x00 0x12 && regRead t .resLen == 0x2A && dstIs t 0 msg) = true := by decide +kernel

/-- V-L2-59 and V-L2-60. -/
theorem test_chunk_data_out_empty_at_end :
    ends (run 0x33 (withStg { State.resetWith ⟨16, 64, 16, 2, 16⟩ with dstAddr := 64 } iend))
      (fun t => reads t 0x00 0x12 && t.dst == []) = true
    ∧ ends (run 0x33 (withStg { State.resetWith ⟨16, 64, 16, 2, 16⟩ with dstAddr := 65 } iend))
      (fun t => reads t 0x0A 0x16) = true := by decide +kernel

/-- V-L2-83. -/
theorem test_cont_clear :
    ends (run 0x40 (withCont State.reset [ihdr, iend]))
      (fun t => reads t 0x00 0x02 && regRead t .cntCount == 0 && regRead t .storeUsed == 0) = true := by decide +kernel

/-- V-L2-63. -/
theorem test_cont_parse :
    ends (run 0x41 (withSrc Params.recommended p3src))
      (fun t => reads t 0x00 0x02 && t.cont == [ihdr, iend]
        && regRead t .cntCount == 2 && regRead t .storeUsed == 0x0D) = true := by decide +kernel

/-- V-L2-84. -/
theorem test_cont_parse_trusts_declared_length :
    ends (run 0x41 (withSrc Params.recommended (sig ++ f2)))
      (fun t => reads t 0x03 0x06 && t.cont == []
        && regRead t .errStored == 0x3F3F4993 && regRead t .errComputed == 0xABD1D84E) = true := by decide +kernel

/-- V-L2-77, its second CONT_APPEND. -/
theorem test_cont_append_store :
    ends (run 0x42 (withStg (withCont (State.resetWith ⟨16, 16, 16, 9, 20⟩) [ihdr]) ihdr))
      (fun t => reads t 0x0B 0x16 && regRead t .cntCount == 1 && regRead t .storeUsed == 0x0D) = true := by decide +kernel

/-- V-L2-76, its second and third CONT_APPEND. -/
theorem test_cont_append_count :
    ends (run 0x42 (withStg (withCont (State.resetWith small) [iend]) iend)) (fun t => t.cont == [iend, iend]) = true
    ∧ ends (run 0x42 (withStg (withCont (State.resetWith small) [iend, iend]) iend))
      (fun t => reads t 0x0B 0x16 && regRead t .cntCount == 2) = true := by decide +kernel

/-- V-L2-79. -/
theorem test_cont_find_first :
    ends (run 0x44 { withCont State.reset [ihdr, rustA, rustB] with typeReg := 0x52755374 })
      (fun t => reads t 0x00 0x0A && regRead t .index == 1) = true := by decide +kernel

/-- V-L2-80. -/
theorem test_cont_find_is_case_sensitive :
    ends (run 0x44 { withStg (withCont State.reset [ihdr, rustB]) rustA with
        typeReg := 0x72755374, found := true, index := 1 })
      (fun t => reads t 0x00 0x12 && regRead t .index == 0xFFFFFFFF) = true := by decide +kernel

/-- V-L1-18, V-L2-79. -/
theorem test_cont_remove_first :
    ends (run 0x43 { withCont State.reset [ihdr, rustA, rustB] with typeReg := 0x52755374, found := true })
      (fun t => reads t 0x00 0x1A && t.cont == [ihdr, rustB] && regRead t .index == 1
        && regRead t .stgLen == 1 && regRead t .stgDeclLen == 1 && regRead t .stgCrc == 0xC70C46CD) = true := by decide +kernel

/-- V-L2-82. -/
theorem test_cont_remove_capacity :
    ends (run 0x43 { withCont (State.resetWith ⟨64, 64, 8, 9, 64⟩) [ihdr, iend] with typeReg := 0x49484452 })
      (fun t => reads t 0x0B 0x06 && regRead t .cntCount == 2) = true := by decide +kernel

/-- V-L2-81, its third CONT_GET. -/
theorem test_cont_get :
    ends (run 0x45 { withStg (withCont State.reset [ihdr, rustB]) rustA with index := 1 })
      (fun t => reads t 0x00 0x12 && regRead t .stgType == 0x52755374 && regRead t .stgCrc == 0x5E051777) = true := by decide +kernel

/-- V-L2-81, its first two. -/
theorem test_cont_get_range :
    [0xFFFFFFFF, 2].all (fun i => ends (run 0x45 { withCont State.reset [ihdr, rustB] with index := i })
      (fun t => reads t 0x0D 0x06 && t.stg == none)) = true := by decide +kernel

/-- V-L2-87: the stream fills the buffer. -/
theorem test_cont_emit :
    ends (run 0x46 (withCont (State.resetWith ⟨64, 45, 16, 9, 64⟩) [ihdr, iend]))
      (fun t => reads t 0x00 0x02 && regRead t .resLen == 0x2D && dstIs t 0 p3src) = true := by decide +kernel

/-- V-L2-86. -/
theorem test_cont_emit_bounds :
    ends (run 0x46 (withCont (State.resetWith ⟨64, 44, 16, 9, 64⟩) [ihdr, iend]))
      (fun t => reads t 0x0A 0x06 && t.dst == []) = true := by decide +kernel

/-- V-L2-88. -/
theorem test_illegal_word :
    [0x00000100, 0x00000002, 0x00000013, 0x00000047, 0x000000FF, 0x80000010].all (fun w =>
      ends (run w State.reset) (fun t => reads t 0x09 0x06)) = true := by decide +kernel

/-! ### The bus, the reset input, the host script -/

/-- V-L2-92. -/
theorem test_status_read_while_busy :
    ends (step { hostAt State.reset (.access .readStatus) with busy := true, delay := 1 })
      (fun t => t.host.v == 0x01) = true := by decide +kernel

/-- V-L2-93 and V-L2-94. -/
theorem test_protocol_busy :
    faultsWith (step { hostAt State.reset (.access (.regWrite 0x04 0)) with busy := true, delay := 1 })
      .protocolBusy = true
    ∧ faultsWith (step { hostAt State.reset (.access (.regRead 0x0C)) with busy := true, delay := 1 })
      .protocolBusy = true := by decide +kernel

/-- V-L2-95 and V-L2-96. -/
theorem test_protocol_access :
    faultsWith (step (hostAt State.reset (.access (.regWrite 0x08 0)))) .protocolAccess = true
    ∧ faultsWith (step (hostAt State.reset (.access (.regRead 0x74)))) .protocolAccess = true := by decide +kernel

/-- V-L2-97 and V-L2-46. -/
theorem test_unwritten_source :
    faultsWith (run 0x12 { withSrc Params.recommended [0x61, 0x62] with argLen := 3 }) .unwrittenSource = true
    ∧ faultsWith (run 0x20 { withSrc Params.recommended rust with argLen := 5 }) .unwrittenSource = true := by decide +kernel

/-- V-L2-98. -/
theorem test_unwritten_destination :
    faultsWith (step (hostAt State.reset (.access (.dstGet 0)))) .unwrittenDest = true := by decide +kernel

/-- 10 R46: CMD, BUSY and DONE after a CMD write. -/
theorem test_cmd_write_is_latched :
    ends (step (hostAt { State.reset with done := true } (.access (.regWrite 0x04 0x12))))
      (fun t => t.latch == 0x12 && regRead t .cmd == 0x12 && regRead t .status == 0x01) = true := by decide +kernel

/-- 70 R136: reset abandons the latched command and empties the buffers. -/
theorem test_reset_input :
    ends (step { (withSrc Params.recommended rust).withFetchWord 32 0x20 with resetIn := [true, false] })
      (fun t => !t.busy && t.src == [] && t.latch == 0 && t.resetIn == [false] && reads t 0 0) = true := by decide +kernel

/-- 30 R79: the expansion of `CRC32 0, 9` as program P1 prints it. -/
theorem test_script_crc_line :
    assemble [.crcOf 0 9] = some [.access (.regWrite 0x10 0), .access (.regWrite 0x14 9),
      .access (.regWrite 0x04 0x10), .access (.regRead 0x08), .bnz 0x1 3,
      .access (.regWrite 0x04 0x12), .access (.regRead 0x08), .bnz 0x1 6, .access (.regRead 0x34)] := by decide +kernel

/-- Lines of programs P2 and P4: a text, a branch to a label, the check. -/
theorem test_script_labels_and_text :
    assemble [.srcs 4 "Th", .setType "RuSt", .check, .bnz 0xFF 1, .halt, .label 1, .halt] =
    some [.access (.srcPut 4 0x54), .access (.srcPut 5 0x68), .access (.regWrite 0x1C 0x52755374),
      .access (.regRead 0x0C), .bnz 0xFF 6, .halt, .halt] := by decide +kernel

/-! ### Witnesses: states that meet the hypotheses of a statement, clause by clause -/

/-- A busy block with a host turn left, the host at one operation. -/
def busyAt (op : HostOp) : State := { hostAt State.reset op with busy := true, delay := 1 }

/-- A record that fills STG under the small capacities. -/
def full : Chunk :=
  ⟨⟨0x61, 0x62, 0x63, 0x64⟩, [1, 2, 3, 4], crc32 [0x61, 0x62, 0x63, 0x64, 1, 2, 3, 4]⟩

/-- A record one byte too long for STG under the small capacities. -/
def tooBig : Chunk := ⟨⟨0x61, 0x62, 0x63, 0x64⟩, [1, 2, 3, 4, 5], 0⟩

/-- A computed completion, with what the state after it shows. -/
theorem exists_of_ends {o : Result} {p : State → Bool} (h : ends o p = true) :
    ∃ t, o = .next t ∧ p t = true := by
  cases o with
  | next t => exact ⟨t, rfl, h⟩
  | fault f => cases h
  | refused r => cases h

/-- The result of a command that completes; the given state where it does not. -/
def resultOr (s : State) (o : Result) : State :=
  match o with
  | .next t => t
  | _ => s

/-- A computed completion. -/
theorem eq_resultOr {s : State} {o : Result} (h : ends o (fun _ => true) = true) :
    o = .next (resultOr s o) := by
  cases o with
  | next t => rfl
  | fault f => cases h
  | refused r => cases h

/-- The SRC range of a state, computed. -/
theorem srcHolds_of_readRange {s : State} {bs : List Byte}
    (h : (bs.length == s.argLen.toNat
      && decide (s.argAddr.toNat + s.argLen.toNat ≤ s.params.srcSize.toNat)
      && s.src.readRange s.argAddr.toNat s.argLen.toNat == some bs) = true) : s.srcHolds bs := by
  simp only [Bool.and_eq_true, beq_iff_eq, decide_eq_true_eq] at h
  exact ⟨h.1.1, h.1.2, (Memory.readRange_eq_some.1 h.2).2⟩

/-- The word of CRC_INIT latched. -/
theorem test_witness_SequencerRunsLatchedCommand :
    (State.reset.withFetchWord 32 0x10).sequencerNext
    ∧ decode (State.reset.withFetchWord 32 0x10).latch = .command .crcInit :=
  ⟨⟨rfl, rfl, rfl⟩, by decide⟩

/-- The two reasons, each alone: bit 8 set beside an opcode; the opcode after SOFT_RESET. -/
theorem test_witness_IllegalWordCompletesWithoutEffect :
    ((State.reset.withFetchWord 32 0x101).sequencerNext
      ∧ (State.reset.withFetchWord 32 0x101).latch.extractLsb' 8 24 ≠ 0)
    ∧ (State.reset.withFetchWord 32 0x02).sequencerNext
    ∧ ∀ i : Instr, (State.reset.withFetchWord 32 0x02).latch.extractLsb' 0 8 ≠ i.opcode :=
  ⟨⟨⟨rfl, rfl, rfl⟩, by decide⟩, ⟨rfl, rfl, rfl⟩, fun i => by cases i <;> decide⟩

/-- The level high at the coming step, low after it. -/
theorem test_witness_HardwareResetRestoresBlock :
    { State.reset with resetIn := [true, false] }.resetIn = true :: [false] :=
  rfl

/-- A host about to write CMD. -/
theorem test_witness_CmdWriteLatchesCommand :
    (hostAt State.reset (.access (.regWrite 0x04 0x10))).hostNext (.access (.regWrite 0x04 0x10)) :=
  ⟨rfl, rfl, rfl⟩

/-- A host about to write each of the other RW registers. -/
theorem test_witness_RegisterWriteStoresWord :
    ∀ off ∈ [0x10, 0x14, 0x18, 0x1C, 0x24, 0x2C],
      (hostAt State.reset (.access (.regWrite off 0xFFFFFFFF))).hostNext (.access (.regWrite off 0xFFFFFFFF)) :=
  fun _ _ => ⟨rfl, rfl, rfl⟩

/-- A host about to read any register. -/
theorem test_witness_RegisterReadHasNoSideEffect :
    ∀ r : RegName,
      (hostAt State.reset (.access (.regRead r.offset))).hostNext (.access (.regRead r.offset)) :=
  fun _ => ⟨rfl, rfl, rfl⟩

/-- Each reason alone: a narrow read, a misaligned one, the first offset past the map; a narrow write, a misaligned one, a write to RO registers at both ends of the map. -/
theorem test_witness_ForbiddenRegisterAccessFaults :
    (hostAt State.reset (.access (.read .reg .half 0))).hostNext (.access (.read .reg .half 0))
    ∧ (hostAt State.reset (.access (.read .reg .word 0x72))).hostNext (.access (.read .reg .word 0x72))
    ∧ (hostAt State.reset (.access (.read .reg .word 0x74))).hostNext (.access (.read .reg .word 0x74))
    ∧ (hostAt State.reset (.access (.write .reg .byte 4 0))).hostNext (.access (.write .reg .byte 4 0))
    ∧ (hostAt State.reset (.access (.write .reg .word 6 0))).hostNext (.access (.write .reg .word 6 0))
    ∧ (hostAt State.reset (.access (.write .reg .word 0 0))).hostNext (.access (.write .reg .word 0 0))
    ∧ (hostAt State.reset (.access (.write .reg .word 0x70 0))).hostNext (.access (.write .reg .word 0x70 0)) :=
  ⟨⟨rfl, rfl, rfl⟩, ⟨rfl, rfl, rfl⟩, ⟨rfl, rfl, rfl⟩, ⟨rfl, rfl, rfl⟩, ⟨rfl, rfl, rfl⟩, ⟨rfl, rfl, rfl⟩, ⟨rfl, rfl, rfl⟩⟩

/-- A write to the last cell and one past it; a read of a written cell, of an unwritten one, past the buffer; accesses that are too wide. -/
theorem test_witness_SourceBufferAccess :
    ((hostAt (withSrc small [7]) (.access (.write .src .byte 15 7))).hostNext (.access (.write .src .byte 15 7))
      ∧ 15 < small.srcSize.toNat)
    ∧ ((hostAt (withSrc small [7]) (.access (.write .src .byte 16 7))).hostNext (.access (.write .src .byte 16 7))
      ∧ small.srcSize.toNat ≤ 16)
    ∧ (hostAt (withSrc small [7]) (.access (.write .src .half 0 7))).hostNext (.access (.write .src .half 0 7))
    ∧ ((hostAt (withSrc small [7]) (.access (.read .src .byte 0))).hostNext (.access (.read .src .byte 0))
      ∧ (withSrc small [7]).src.read 0 = some 7)
    ∧ ((hostAt (withSrc small [7]) (.access (.read .src .byte 15))).hostNext (.access (.read .src .byte 15))
      ∧ (withSrc small [7]).src.read 15 = none)
    ∧ (hostAt (withSrc small [7]) (.access (.read .src .byte 16))).hostNext (.access (.read .src .byte 16))
    ∧ (hostAt (withSrc small [7]) (.access (.read .src .word 0))).hostNext (.access (.read .src .word 0)) :=
  ⟨⟨⟨rfl, rfl, rfl⟩, by decide⟩, ⟨⟨rfl, rfl, rfl⟩, by decide⟩, ⟨rfl, rfl, rfl⟩, ⟨⟨rfl, rfl, rfl⟩, rfl⟩, ⟨⟨rfl, rfl, rfl⟩, rfl⟩, ⟨rfl, rfl, rfl⟩, ⟨rfl, rfl, rfl⟩⟩

/-- A host write; a read of a written last cell, of an unwritten one, past the buffer, too wide. -/
theorem test_witness_DestinationBufferAccess :
    (hostAt State.reset (.access (.write .dst .byte 0 7))).hostNext (.access (.write .dst .byte 0 7))
    ∧ ((hostAt { State.resetWith small with dst := [(15, 7)] } (.access (.read .dst .byte 15))).hostNext
        (.access (.read .dst .byte 15)) ∧ Memory.read [(15, 7)] 15 = some 7 ∧ 15 < small.dstSize.toNat)
    ∧ (hostAt (State.resetWith small) (.access (.read .dst .byte 15))).hostNext (.access (.read .dst .byte 15))
    ∧ ((hostAt (State.resetWith small) (.access (.read .dst .byte 16))).hostNext (.access (.read .dst .byte 16))
      ∧ small.dstSize.toNat ≤ 16)
    ∧ (hostAt (State.resetWith small) (.access (.read .dst .word 0))).hostNext (.access (.read .dst .word 0)) :=
  ⟨⟨rfl, rfl, rfl⟩, ⟨⟨rfl, rfl, rfl⟩, rfl, by decide⟩, ⟨rfl, rfl, rfl⟩, ⟨⟨rfl, rfl, rfl⟩, by decide⟩, ⟨rfl, rfl, rfl⟩⟩

/-- A host with one turn left, about to read STATUS; about to read ERRCODE, to read a byte. -/
theorem test_witness_OnlyStatusReadWhileBusy :
    ∀ a ∈ [Access.readStatus, .regRead 0x0C, .srcGet 0], (busyAt (.access a)).resetLow
      ∧ (busyAt (.access a)).busy = true ∧ (busyAt (.access a)).delay = 0 + 1
      ∧ (busyAt (.access a)).host.prog[(busyAt (.access a)).host.pos]? = some (.access a) :=
  fun _ _ => ⟨rfl, rfl, rfl, rfl⟩

/-- Each branch with BUSY = 0 and with BUSY = 1, with a value that takes it and one that does not. -/
theorem test_witness_HostBranchesFollowValue :
    (∀ op ∈ [HostOp.bz 1 5, .bnz 1 5], (hostAt State.reset op).hostMoves ∧ (busyAt op).hostMoves
      ∧ { busyAt op with host := ⟨[op], 0, 3, []⟩ }.hostMoves
      ∧ (hostAt State.reset op).host.prog[0]? = some op ∧ (busyAt op).host.prog[0]? = some op)
    ∧ (hostAt State.reset (.bz 1 5)).host.v &&& 1 = 0 ∧ (3 : Word) &&& 1 ≠ 0 :=
  ⟨fun _ _ => ⟨⟨rfl, nofun⟩, ⟨rfl, fun _ => Nat.one_ne_zero⟩, ⟨rfl, fun _ => Nat.one_ne_zero⟩, rfl, rfl⟩,
    by decide, by decide⟩

/-- After reset, with no program; at HALT; at HALT in a host turn while BUSY = 1. -/
theorem test_witness_IdleBlockHoldsState :
    (State.reset.host.ended = true ∧ State.reset.resetLow ∧ State.reset.busy = false)
    ∧ ((hostAt State.reset .halt).host.ended = true ∧ (hostAt State.reset .halt).hostMoves)
    ∧ (busyAt .halt).host.ended = true ∧ (busyAt .halt).busy = true ∧ (busyAt .halt).hostMoves :=
  ⟨⟨rfl, rfl, rfl⟩, ⟨rfl, rfl, nofun⟩, rfl, rfl, rfl, fun _ => by decide⟩

/-- A host about to write any RW register, CRC_IN with bits above 7 set. -/
theorem test_witness_StoredRegistersReadBack :
    ∀ r ∈ [RegName.cmd, .argAddr, .argLen, .dstAddr, .type, .index, .crcIn],
      (hostAt State.reset (.access (.regWrite r.offset 0x12345678))).hostNext
        (.access (.regWrite r.offset 0x12345678)) :=
  fun _ _ => ⟨rfl, rfl, rfl⟩

/-- STG empty and holding a record. -/
theorem test_witness_ReadOnlyViews :
    (withStg State.reset ihdr).stg = some ihdr ∧ State.reset.stg = none :=
  ⟨rfl, rfl⟩

/-- CRC_BUF, TYPE_FROM_STR, CHUNK_NEW, CHUNK_PARSE, CONT_PARSE: a range that ends with the buffer, one a byte longer, one with an unwritten last cell. -/
theorem test_witness_source_range :
    (atEnd [0x61, 0x62, 0x63, 0x64]).srcHolds [0x61, 0x62, 0x63, 0x64] ∧ State.reset.srcHolds []
    ∧ pastEnd.srcTooLong ∧ withHole.srcUnwritten :=
  ⟨srcHolds_of_readRange (by decide +kernel), srcHolds_of_readRange (by decide +kernel), by show (_ : Nat) < _; decide,
    by show (_ : Nat) ≤ _; decide, 3, by decide, rfl⟩

/-- Letters at both ends of both ranges; four bytes that are no letters, next to the ranges; three letters. -/
theorem test_witness_TypeFromStrLoadsFourLetters :
    ((atEnd [0x41, 0x5A, 0x61, 0x7A]).srcHolds (Tag.mk 0x41 0x5A 0x61 0x7A).bytes
      ∧ ∀ b ∈ (Tag.mk 0x41 0x5A 0x61 0x7A).bytes, isLetter b)
    ∧ ((atEnd [0x40, 0x5B, 0x60, 0x7B]).srcHolds [0x40, 0x5B, 0x60, 0x7B]
      ∧ ∃ b ∈ [(0x40 : Byte), 0x5B, 0x60, 0x7B], ¬ isLetter b)
    ∧ (withSrc small [0x41, 0x42, 0x43]).srcHolds [0x41, 0x42, 0x43] ∧ [(0x41 : Byte), 0x42, 0x43].length ≠ 4 :=
  ⟨⟨srcHolds_of_readRange (by decide +kernel), by unfold isLetter; decide⟩,
    ⟨srcHolds_of_readRange (by decide +kernel), by unfold isLetter; decide⟩, srcHolds_of_readRange (by decide +kernel), by decide⟩

/-- Data that fills STG, and one byte more. -/
theorem test_witness_ChunkNewStagesRecord :
    ((withSrc small [1, 2, 3, 4]).srcHolds [1, 2, 3, 4] ∧ [(1 : Byte), 2, 3, 4].length ≤ small.stgCap.toNat)
    ∧ (withSrc small [1, 2, 3, 4, 5]).srcHolds [1, 2, 3, 4, 5]
    ∧ small.stgCap.toNat < [(1 : Byte), 2, 3, 4, 5].length :=
  ⟨⟨srcHolds_of_readRange (by decide +kernel), by decide⟩, srcHolds_of_readRange (by decide +kernel), by decide⟩

/-- IEND with a wrong declared length and a right CRC; the same with a wrong CRC; a frame whose data is one byte too long; 11 bytes. -/
theorem test_witness_ChunkParseIsPermissive :
    ((withSrc small (be32bytes 0xFFFFFFFF ++ iend.type.bytes ++ [] ++ be32bytes 0xAE426082)).srcHolds
        (be32bytes 0xFFFFFFFF ++ iend.type.bytes ++ [] ++ be32bytes 0xAE426082)
      ∧ (0xAE426082 : Word) = crc32 (iend.type.bytes ++ []))
    ∧ ((withSrc small (be32bytes 0 ++ iend.type.bytes ++ [] ++ be32bytes 0xAE426083)).srcHolds
        (be32bytes 0 ++ iend.type.bytes ++ [] ++ be32bytes 0xAE426083)
      ∧ (0xAE426083 : Word) ≠ crc32 (iend.type.bytes ++ []))
    ∧ ((withSrc ⟨17, 16, 4, 2, 6⟩ (be32bytes 5 ++ tooBig.type.bytes ++ tooBig.data ++ be32bytes 0)).srcHolds
        (be32bytes 5 ++ tooBig.type.bytes ++ tooBig.data ++ be32bytes 0)
      ∧ small.stgCap.toNat < tooBig.data.length)
    ∧ (withSrc small (iend0.take 11)).srcHolds (iend0.take 11) ∧ (iend0.take 11).length < 12 :=
  ⟨⟨srcHolds_of_readRange (by decide +kernel), by decide +kernel⟩,
    ⟨srcHolds_of_readRange (by decide +kernel), by decide +kernel⟩,
    ⟨srcHolds_of_readRange (by decide +kernel), by decide⟩,
    srcHolds_of_readRange (by decide +kernel), by decide⟩

/-- A frame that ends with the buffer, one a byte past it, STG empty. -/
theorem test_witness_ChunkEmitWritesFrame :
    ((withStg (State.resetWith small) full).stg = some full
      ∧ (withStg (State.resetWith small) full).dstFits (12 + full.data.length))
    ∧ ¬ { withStg (State.resetWith small) full with dstAddr := 1 }.dstFits (12 + full.data.length)
    ∧ State.reset.stg = none :=
  ⟨⟨rfl, by show (_ : Nat) ≤ _; decide⟩, by show ¬ (_ : Nat) ≤ _; decide, rfl⟩

/-- Data that ends with the buffer, and one byte past it. -/
theorem test_witness_ChunkDataOutCopiesData :
    { withStg (State.resetWith small) full with dstAddr := 12 }.dstFits full.data.length
    ∧ ¬ { withStg (State.resetWith small) full with dstAddr := 13 }.dstFits full.data.length :=
  ⟨by show (_ : Nat) ≤ _; decide, by show ¬ (_ : Nat) ≤ _; decide⟩

/-- Seven bytes of the signature; eight bytes that are not the signature. -/
theorem test_witness_ContParseWalksStream_signature :
    ((withSrc small (sig.take 7)).srcHolds (sig.take 7) ∧ (sig.take 7).length < 8)
    ∧ (withSrc small (0x88 :: sig.drop 1)).srcHolds (0x88 :: sig.drop 1)
    ∧ (0x88 :: sig.drop 1).take 8 ≠ [0x89, 0x50, 0x4E, 0x47, 0x0D, 0x0A, 0x1A, 0x0A] :=
  ⟨⟨srcHolds_of_readRange (by decide +kernel), by decide⟩, srcHolds_of_readRange (by decide +kernel), by decide⟩

/-- A stream of one IEND frame followed by `rest`, with SRC_SIZE 64, MAX_CHUNKS `m` and STORE_CAP `c`. -/
def iendThen (m c : Word) (rest : List Byte) : State :=
  withSrc ⟨64, 16, 4, m, c⟩ ([0x89, 0x50, 0x4E, 0x47, 0x0D, 0x0A, 0x1A, 0x0A] ++ [iend].flatMap frame ++ rest)

/-- It holds that stream, and the record may be stored. -/
def iendThenOk (m c : Word) (rest : List Byte) : Prop :=
  storable (iendThen m c rest).params [iend]
  ∧ (iendThen m c rest).srcHolds
      ([0x89, 0x50, 0x4E, 0x47, 0x0D, 0x0A, 0x1A, 0x0A] ++ [iend].flatMap frame ++ rest)

/-- The computed form of `iendThenOk`. -/
theorem iendThenOk_of {m c : Word} {rest : List Byte} (hm : 1 ≤ m.toNat)
    (h : (([0x89, 0x50, 0x4E, 0x47, 0x0D, 0x0A, 0x1A, 0x0A] ++ [iend].flatMap frame ++ rest).length
        == (iendThen m c rest).argLen.toNat
      && decide ((iendThen m c rest).argAddr.toNat + (iendThen m c rest).argLen.toNat
          ≤ (iendThen m c rest).params.srcSize.toNat)
      && (iendThen m c rest).src.readRange (iendThen m c rest).argAddr.toNat
          (iendThen m c rest).argLen.toNat
        == some ([0x89, 0x50, 0x4E, 0x47, 0x0D, 0x0A, 0x1A, 0x0A] ++ [iend].flatMap frame ++ rest))
      = true) : iendThenOk m c rest := by
  refine ⟨⟨hm, Nat.zero_le _, fun k hk => ?_⟩, srcHolds_of_readRange h⟩
  rw [List.mem_singleton.1 hk]
  decide +kernel

/-- Nothing follows; one byte, three bytes follow; four bytes and a frame one byte short follow. -/
theorem test_witness_ContParseWalksStream_end :
    iendThenOk 1 0 [] ∧ iendThenOk 1 0 [0] ∧ iendThenOk 1 0 [0, 0, 0] ∧ iendThenOk 2 0 [0, 0, 0, 0]
    ∧ iendThenOk 2 0 (iend0.take 11) ∧ (iend0.take 11).length < 12 + (be32 (iend0.take 11)).toNat :=
  ⟨iendThenOk_of (by decide) (by decide +kernel), iendThenOk_of (by decide) (by decide +kernel), iendThenOk_of (by decide) (by decide +kernel),
    iendThenOk_of (by decide) (by decide +kernel), iendThenOk_of (by decide) (by decide +kernel), by decide⟩

/-- A frame that the count does not admit; one that the store does not admit by a byte; one that both admit to the last, with a wrong CRC. -/
theorem test_witness_ContParseWalksStream_frame :
    (iendThenOk 1 6 (be32bytes 0 ++ iend.type.bytes ++ [] ++ be32bytes 0xAE426082 ++ []) ∧ 1 < [iend].length + 1)
    ∧ (iendThenOk 2 3 (be32bytes 4 ++ full.type.bytes ++ full.data ++ be32bytes full.crc ++ [])
      ∧ full.data.length = (4 : Word).toNat ∧ 3 < dataTotal [iend] + full.data.length)
    ∧ iendThenOk 2 4 (be32bytes 4 ++ full.type.bytes ++ full.data ++ be32bytes 0 ++ [9])
    ∧ [iend].length + 1 ≤ 2 ∧ dataTotal [iend] + full.data.length ≤ 4
    ∧ (0 : Word) ≠ crc32 (full.type.bytes ++ full.data) :=
  ⟨⟨iendThenOk_of (by decide) (by decide +kernel), by decide⟩, ⟨iendThenOk_of (by decide) (by decide +kernel), rfl, by decide⟩,
    iendThenOk_of (by decide) (by decide +kernel), by decide, by decide, by decide +kernel⟩

/-- The last record and the last byte that fit; one record, one byte more; STG empty. -/
theorem test_witness_ContAppendCopiesStage :
    ((withStg (withCont (State.resetWith small) [rustA]) full).stg = some full
      ∧ [rustA].length + 1 ≤ small.maxChunks.toNat ∧ dataTotal [rustA] + full.data.length ≤ small.storeCap.toNat)
    ∧ small.maxChunks.toNat < [rustA, rustB].length + 1
    ∧ small.storeCap.toNat < dataTotal [⟨rustA.type, [1, 2, 3], 0⟩] + full.data.length
    ∧ State.reset.stg = none :=
  ⟨⟨rfl, by decide, by decide⟩, by decide, by decide, rfl⟩

/-- CONT_FIND and CONT_REMOVE: the first of two records of the type, behind another; no record of the type. The staged record fits, and is one byte too long. -/
theorem test_witness_first_match :
    ({ withCont State.reset [ihdr, rustA, rustB] with typeReg := 0x52755374 }.firstMatch 1 rustA)
    ∧ (∀ k ∈ [ihdr, rustA], ¬ { withCont State.reset [ihdr, rustA] with typeReg := 0x72755374 }.matchesType k)
    ∧ ({ withCont (State.resetWith small) [full] with typeReg := 0x61626364 }.firstMatch 0 full
      ∧ full.data.length ≤ small.stgCap.toNat)
    ∧ { withCont (State.resetWith small) [tooBig] with typeReg := 0x61626364 }.firstMatch 0 tooBig
    ∧ small.stgCap.toNat < tooBig.data.length :=
  by
  refine ⟨⟨rfl, by unfold State.matchesType; decide, fun j hj l hl => ?_⟩, ?_, ⟨⟨rfl, ?_, ?_⟩, by decide⟩,
    ⟨rfl, ?_, ?_⟩, by decide⟩
  · obtain rfl : j = 0 := by omega
    cases hl
    unfold State.matchesType
    decide
  · unfold State.matchesType
    decide
  · unfold State.matchesType
    decide
  · intro j hj
    omega
  · unfold State.matchesType
    decide
  · intro j hj
    omega

/-- The last index; the first index past the container; a record that fits and one that is too long. -/
theorem test_witness_ContGetStagesIndexed :
    ({ withCont (State.resetWith small) [rustA, full] with index := 1 }.cont[(1 : Word).toNat]? = some full
      ∧ full.data.length ≤ small.stgCap.toNat)
    ∧ ({ withCont (State.resetWith small) [rustA, tooBig] with index := 1 }.cont[(1 : Word).toNat]? = some tooBig
      ∧ small.stgCap.toNat < tooBig.data.length)
    ∧ (withCont (State.resetWith small) [rustA, full]).cont.length ≤ (2 : Word).toNat :=
  ⟨⟨rfl, by decide⟩, ⟨rfl, by decide⟩, by decide⟩

/-- A stream that ends with the buffer, and one a byte past it. -/
theorem test_witness_ContEmitWritesStream :
    { State.resetWith small with dstAddr := 8 }.dstFits (8 + 12 * 0 + dataTotal [])
    ∧ ¬ { State.resetWith small with dstAddr := 9 }.dstFits (8 + 12 * 0 + dataTotal []) :=
  ⟨by show (_ : Nat) ≤ _; decide, by show ¬ (_ : Nat) ≤ _; decide⟩

/-- Valid capacities and a container within them. -/
theorem test_witness_ContFindFirstOfType :
    small.valid = true ∧ (withCont (State.resetWith small) [rustA]).chunksOk :=
  ⟨by decide, by decide, by decide, fun k hk => by rw [List.mem_singleton.1 hk]; decide +kernel,
    fun _ hk => by cases hk⟩

/-- A record in STG; SOFT_RESET; a hardware reset. -/
theorem test_witness_OnlyResetsEmptyStage :
    let s : State := (withStg State.reset iend).withFetchWord 32 0x01
    let r : State := { withStg State.reset iend with resetIn := [true] }
    (s.stg ≠ none ∧ ∃ t, step s = .next t ∧ t.stg = none) ∧ r.stg ≠ none ∧ ∃ t, step r = .next t ∧ t.stg = none :=
  ⟨⟨by decide, _, rfl, rfl⟩, by decide, _, rfl, rfl⟩

/-- A host write to TYPE that changes it; commands that change TYPE, CONT, CRC_STATE and the diagnostics. -/
theorem test_witness_ComponentsChangeOnlyByTheirWriters :
    (∃ t, step (hostAt State.reset (.access (.regWrite 0x1C 5))) = .next t ∧ (t.typeReg != 0) = true)
    ∧ (∃ t, run 0x20 (withSrc small rust) = .next t ∧ (t.typeReg != 0) = true)
    ∧ (∃ t, run 0x42 (withStg State.reset iend) = .next t ∧ (t.cont != []) = true)
    ∧ (∃ t, run 0x11 State.reset = .next t ∧ (t.crcState != 0xFFFFFFFF) = true)
    ∧ ∃ t, run 0x31 (withSrc small (iend0.take 11 ++ [0])) = .next t ∧ (t.errStored != 0) = true :=
  ⟨exists_of_ends (p := fun t => t.typeReg != 0) (by decide +kernel),
    exists_of_ends (p := fun t => t.typeReg != 0) (by decide +kernel),
    exists_of_ends (p := fun t => t.cont != []) (by decide +kernel),
    exists_of_ends (p := fun t => t.crcState != 0xFFFFFFFF) (by decide +kernel),
    exists_of_ends (p := fun t => t.errStored != 0) (by decide +kernel)⟩

/-- A command that reports an error and one that succeeds; a state with each code the block reports. -/
theorem test_witness_CommandReportsItsOwnErrors :
    (∃ t, exec .contGet State.reset = .next t ∧ t.errcode = .indexRange)
    ∧ (∃ t, exec .nop State.reset = .next t ∧ t.errcode = .none)
    ∧ ∀ e ∈ [ErrCode.none, .badSignature, .truncated, .checksumMismatch, .invalidFormat, .notFound,
        .illegalCommand, .bounds, .capacity, .stageEmpty, .indexRange],
      (State.reset.complete e).errcode = e :=
  ⟨⟨_, rfl, rfl⟩, ⟨_, rfl, rfl⟩, fun _ _ => rfl⟩

/-- Both ends: a completion, and the model fault. -/
theorem test_witness_CommandCompletesOrUnwritten :
    (∃ t, exec .crcBuf (atEnd [1, 2, 3, 4]) = .next t) ∧ exec .crcBuf withHole = .fault .unwrittenSource :=
  ⟨⟨_, rfl⟩, rfl⟩

/-- A command that succeeds. -/
theorem test_witness_SuccessWritesOnlyItsRow :
    ∃ t, exec .contAppend (withStg State.reset rustA) = .next t ∧ t.errcode = .none :=
  ⟨_, rfl, rfl⟩

/-- A command that fails, with and without CHECKSUM_MISMATCH. -/
theorem test_witness_ErrorLeavesEverythingElse :
    (∃ t, exec .contAppend State.reset = .next t ∧ t.errcode = .stageEmpty)
    ∧ ∃ t, exec .chunkParse (withSrc small (iend0.take 11 ++ [0])) = .next t
      ∧ (t.errcode == .checksumMismatch) = true :=
  ⟨⟨_, rfl, rfl⟩, exists_of_ends (p := fun t => t.errcode == .checksumMismatch) (by decide +kernel)⟩

/-- An emitting command that succeeds, one that fails, a command of another kind. -/
theorem test_witness_DestinationOutsideRangeKept :
    (∃ t, exec .contEmit (State.resetWith small) = .next t ∧ t.errcode = .none)
    ∧ (∃ t, exec .chunkEmit State.reset = .next t ∧ t.errcode ≠ .none)
    ∧ ∃ t, exec .crcInit State.reset = .next t :=
  ⟨⟨_, rfl, rfl⟩, ⟨_, rfl, by decide⟩, ⟨_, rfl⟩⟩

/-- A step of the sequencer that writes DST, and one of the host that writes SRC. -/
theorem test_witness_EachBufferHasOneWriter :
    (∃ t, step ((State.resetWith small).withFetchWord 32 0x46) = .next t ∧ t.dst ≠ []
        ∧ ((State.resetWith small).withFetchWord 32 0x46).sequencerNext)
    ∧ ∃ t, step (hostAt State.reset (.access (.srcPut 0 7))) = .next t ∧ t.src ≠ []
        ∧ ¬ (hostAt State.reset (.access (.srcPut 0 7))).sequencerNext :=
  ⟨⟨_, rfl, by decide, ⟨rfl, rfl, rfl⟩⟩, ⟨_, rfl, by decide, fun h => by cases h.2.1⟩⟩

/-- A written cell of SRC and a host that writes it again. -/
theorem test_witness_WrittenCellsStayWritten :
    ∃ t, step (hostAt (withSrc small [7]) (.access (.srcPut 0 8))) = .next t
      ∧ ((withSrc small [7]).src.read 0).isSome ∧ t.src.read 0 = some 8 :=
  ⟨_, rfl, rfl, rfl⟩

/-- Two states that differ in what CRC_BUF does not read: TYPE, STG, CONT, DST, and a SRC cell outside the range. A fault, and a result. -/
theorem test_witness_ResultDependsOnlyOnWhatIsRead :
    (commandAgree .crcBuf (atEnd [1, 2, 3, 4])
        { withStg (atEnd [1, 2, 3, 4]) rustA with
          typeReg := 1, cont := [ihdr], dst := [(0, 1)], src := (atEnd [1, 2, 3, 4]).src.write 0 9 })
    ∧ (∃ t, exec .crcBuf (atEnd [1, 2, 3, 4]) = .next t)
    ∧ commandAgree .crcBuf withHole { withHole with typeReg := 1 }
    ∧ exec .crcBuf withHole = .fault .unwrittenSource :=
  by
  refine ⟨⟨rfl, ?_, fun _ => by decide⟩, ⟨_, rfl⟩, ⟨rfl, ?_, fun _ _ _ => rfl⟩, rfl⟩ <;>
  · intro c hc
    cases c <;> first | rfl | exact absurd hc (by decide)

/-- EveryStepKeepsChunkInvariants and EveryStepKeepsBufferForm at a state with a record in STG and in CONT and with cells in both buffers, and the step of a command there; BusyAndDoneNeverTogether, UnusedCodesNeverAppear and CapacitiesNeverChange likewise. -/
theorem test_witness_invariants :
    let s : State := { withStg (withCont (State.resetWith small) [full]) full with
        src := [(3, 1), (15, 2)], dst := [(15, 9)] }.withFetchWord 32 0x42
    s.chunksOk ∧ s.buffersOk ∧ s.handshakeOk ∧ s.errcode.used = true ∧ ∃ t, step s = .next t :=
  by
  refine ⟨⟨by decide, by decide, ?_, ?_⟩, ⟨by decide, by decide, by decide, by decide⟩, ?_, rfl, _, rfl⟩
  · intro k hk
    rw [List.mem_singleton.1 hk]
    decide +kernel
  · intro k hk
    cases hk
    decide +kernel
  · intro h
    cases h.2

/-- A stream of six bytes, fed as two and four, and at once. -/
theorem test_witness_CrcBufStreams :
    let s : State := { withSrc small [1, 2, 3, 4, 5, 6] with argLen := 2 }
    (s.srcHolds [1, 2] ∧ ∃ t, exec .crcBuf s = .next t
      ∧ State.srcHolds { t with argAddr := 2, argLen := 4 } [3, 4, 5, 6])
    ∧ (withSrc small [1, 2, 3, 4, 5, 6]).crcState = s.crcState
    ∧ (withSrc small [1, 2, 3, 4, 5, 6]).srcHolds ([1, 2] ++ [3, 4, 5, 6]) :=
  ⟨⟨srcHolds_of_readRange (by decide +kernel), _, rfl, srcHolds_of_readRange (by decide +kernel)⟩, rfl, srcHolds_of_readRange (by decide +kernel)⟩

/-- V-L1-19: bit 0 of the first data byte flipped; the last bit of a byte. -/
theorem test_witness_CrcDetectsEverySingleBitFlip :
    (0 < 8 ∧ 7 < 8) ∧ crc32 (rust ++ (0x54 ^^^ BitVec.twoPow 8 0) :: msg.drop 1) = 0x0AE85CA0 :=
  by decide +kernel

/-- After `t`, RES_LEN bytes of DST from `a` copied to SRC, the SRC range set to them. -/
def copied (t : State) (a : Nat) : State :=
  { State.resetWith t.params with
    src := Memory.writeRange [] 0 ((t.dst.readRange a t.resLen.toNat).getD [])
    argLen := t.resLen }

/-- IEND emitted at the end of DST and copied to SRC. -/
theorem test_witness_ChunkFrameRoundTrip_emit :
    let s : State := { withStg (State.resetWith small) iend with dstAddr := 4 }
    let t : State := resultOr s (exec .chunkEmit s)
    s.chunksOk ∧ s.stg = some iend ∧ exec .chunkEmit s = .next t ∧ t.errcode = .none
      ∧ (copied t 4).params = s.params ∧ (copied t 4).argLen = t.resLen
      ∧ (copied t 4).argAddr.toNat + (copied t 4).argLen.toNat ≤ (copied t 4).params.srcSize.toNat
      ∧ ∀ j, j < (copied t 4).argLen.toNat →
          (copied t 4).src.read ((copied t 4).argAddr.toNat + j) = t.dst.read (s.dstAddr.toNat + j) :=
  by
  refine ⟨⟨by decide, by decide, by decide, ?_⟩, rfl, rfl, rfl, rfl, rfl, by decide +kernel, by decide +kernel⟩
  intro k hk
  cases hk
  decide +kernel

/-- A frame of the longest data STG holds, parsed and emitted. -/
theorem test_witness_ChunkFrameRoundTrip_parse :
    let s : State := withSrc small (frame full)
    let t : State := resultOr s (exec .chunkParse s)
    s.srcHolds (frame full) ∧ (be32 (frame full)).toNat = (frame full).length - 12
      ∧ exec .chunkParse s = .next t ∧ t.errcode = .none
      ∧ ∃ t', exec .chunkEmit t = .next t' ∧ (t'.errcode == .none) = true :=
  ⟨srcHolds_of_readRange (by decide +kernel), by decide +kernel, eq_resultOr (by decide +kernel), by decide +kernel,
    exists_of_ends (p := fun t => t.errcode == .none) (by decide +kernel)⟩

/-- A container of two records emitted and copied to SRC. -/
theorem test_witness_ContainerRoundTrip :
    let s : State := { withCont (State.resetWith ⟨64, 64, 4, 2, 6⟩) [iend, full] with dstAddr := 28 }
    let t : State := resultOr s (exec .contEmit s)
    s.chunksOk ∧ exec .contEmit s = .next t ∧ t.errcode = .none
      ∧ (copied t 28).params = s.params ∧ (copied t 28).argLen = t.resLen
      ∧ (copied t 28).argAddr.toNat + (copied t 28).argLen.toNat ≤ (copied t 28).params.srcSize.toNat
      ∧ ∀ j, j < (copied t 28).argLen.toNat →
          (copied t 28).src.read ((copied t 28).argAddr.toNat + j) = t.dst.read (s.dstAddr.toNat + j) :=
  by
  refine ⟨⟨by decide, by decide, by decide +kernel, fun k hk => by cases hk⟩, rfl, rfl, rfl, rfl,
    by decide +kernel, by decide +kernel⟩

/-- P3SRC parsed and emitted. -/
theorem test_witness_ParsedContainerEmitsItsStream :
    let s : State := withSrc ⟨45, 45, 4, 2, 13⟩ p3src
    let t : State := resultOr s (exec .contParse s)
    s.srcHolds p3src ∧ exec .contParse s = .next t ∧ t.errcode = .none
      ∧ ∃ t', exec .contEmit t = .next t' ∧ (t'.errcode == .none) = true :=
  ⟨srcHolds_of_readRange (by decide +kernel), eq_resultOr (by decide +kernel), by decide +kernel,
    exists_of_ends (p := fun t => t.errcode == .none) (by decide +kernel)⟩

/-- A record of a type that the container does not hold, filling it. -/
theorem test_witness_AppendedRecordIsFoundAndRemoved :
    let s : State := { withStg (withCont (State.resetWith small) [rustA]) full with typeReg := 0x61626364 }
    s.stg = some full ∧ s.typeReg = full.type.toWord ∧ (∀ l ∈ s.cont, l.type ≠ full.type)
      ∧ s.cont.length + 1 ≤ s.params.maxChunks.toNat
      ∧ dataTotal s.cont + full.data.length ≤ s.params.storeCap.toNat
      ∧ full.data.length ≤ s.params.stgCap.toNat :=
  ⟨rfl, by decide, by decide, by decide, by decide, by decide⟩

/-- A host that begins a WAIT with one turn left; both ends. -/
theorem test_witness_EveryWaitEnds :
    let s : State := { (State.reset.withProgram [.access .readStatus, .bnz 0x1 0]).withFetchWord 32 0x10 with delay := 1 }
    (s.resetIn = [] ∧ s.busy = true ∧ s.host.pos = 0
      ∧ s.host.prog[0]? = some (.access .readStatus) ∧ s.host.prog[0 + 1]? = some (.bnz 0x1 0))
    ∧ ends (Sys2Proof.core.run 5 s) (fun t => !t.busy && t.host.pos == 2) = true :=
  ⟨⟨rfl, rfl, rfl, rfl, rfl⟩, by decide +kernel⟩

end Sys2Proof.Tests
end

section
/-! PROOFS. The scope of a command (00_scope.md): what a failing one leaves as it was (R14), and that its result depends
only on what its rule reads (R18). -/

namespace Sys2Proof.Machine

/-! ### A failing command (R14, R125) -/

/-- An error raised on `s` changes ERRCODE, BUSY, DONE and the diagnostic registers only. -/
theorem raise_frame (s : State) (e : CmdError) :
    (s.record e.info).complete e.code = { s with
      errcode := e.code, busy := false, done := true
      errStored := (s.record e.info).errStored, errComputed := (s.record e.info).errComputed } := by
  cases e.info with
  | nothing => rfl
  | crcs stored computed => rfl

/-- A command that completes with an error has raised it on the state before it, and one with diagnostics is
CHECKSUM_MISMATCH. -/
theorem exec_failed {i : Instr} {s t : State} (h : exec i s = .next t) (hne : t.errcode ≠ .none) :
    ∃ e : CmdError, t = (s.record e.info).complete e.code
      ∧ (e.info = .nothing ∨ e.code = .checksumMismatch) := by
  have hends := exec_ends i s
  rw [h] at hends
  cases hends with
  | success s' => exact absurd rfl hne
  | error e hc hi => exact ⟨e, rfl, hi⟩

/-- Settles O38: the error was raised on the state before the command, with diagnostics for CHECKSUM_MISMATCH only. -/
theorem errorLeavesEverythingElse : Obligations.ErrorLeavesEverythingElse := by
  intro i s t h hne
  obtain ⟨e, rfl, hi⟩ := exec_failed h hne
  refine ⟨raise_frame s e, fun hm => ?_⟩
  have hnothing : e.info = .nothing := hi.resolve_right hm
  simp [hnothing, State.record]

/-! ### Commands that read alike (R18, R74) -/

section
variable {i : Instr} {s s' : State}

theorem commandAgree.params (h : commandAgree i s s') : s.params = s'.params := h.1

theorem commandAgree.reads (h : commandAgree i s s') (c : Component) (hc : c ∈ commandReads i) :
    Component.same s s' c :=
  h.2.1 c hc

/-- A command with a SRC range reads the two registers that give it (R74). -/
theorem range_mem_commandReads (hr : commandReadsSource i = true) :
    .argAddr ∈ commandReads i ∧ .argLen ∈ commandReads i := by
  revert hr
  cases i <;> decide

/-- States that agree on what a command reads give it the same SRC range (20 R56). -/
theorem commandAgree.srcRead_eq (h : commandAgree i s s') (hr : commandReadsSource i = true) :
    srcRead s s.argAddr.toNat s.argLen.toNat = srcRead s' s'.argAddr.toNat s'.argLen.toNat := by
  obtain ⟨haddr, hlen⟩ := range_mem_commandReads hr
  have ha : s.argAddr = s'.argAddr := h.reads _ haddr
  have hl : s.argLen = s'.argLen := h.reads _ hlen
  have hcells : s.src.readRange s.argAddr.toNat s.argLen.toNat
      = s'.src.readRange s.argAddr.toNat s.argLen.toNat := Memory.readRange_congr (h.2.2 hr)
  rw [srcRead, srcRead, ← ha, ← hl, ← h.params, hcells]

/-- The completion writes none of the components. -/
@[simp] theorem Component.same_complete {c : Component} {e : ErrCode} :
    Component.same (s.complete e) (s'.complete e) c ↔ Component.same s s' c := by
  cases c <;> rfl

end

/-- Two results of the command `i`, of `s` and of `s'`, that R18 holds to be the same: the same model fault, the same
error with the same diagnostics, or success with the same written components and the same bytes in DST. -/
inductive Alike (i : Instr) (s s' : State) : Result → Result → Prop where
  | fault (f : Fault) : Alike i s s' (.fault f) (.fault f)
  | plain (c : ErrCode) (hc : c ∉ [.none, .checksumMismatch] := by decide) :
      Alike i s s' (raise (.plain c) s) (raise (.plain c) s')
  | mismatch (stored computed : Word) :
      Alike i s s' (raise (.mismatch stored computed) s) (raise (.mismatch stored computed) s')
  | success {u u' : State} (hw : ∀ c ∈ commandWrites i, c ≠ .dst → Component.same u u' c)
      (hd : .dst ∈ commandWrites i → ∀ j, j < u.resLen.toNat →
        u'.dst.read (s'.dstAddr.toNat + j) = u.dst.read (s.dstAddr.toNat + j)) :
      Alike i s s' (succeed u) (succeed u')

section
variable {i : Instr} {s s' : State}

/-- Success of a command that does not write DST. -/
theorem Alike.of_same {u u' : State} (h : ∀ c ∈ commandWrites i, Component.same u u' c)
    (hd : .dst ∉ commandWrites i := by decide) : Alike i s s' (succeed u) (succeed u') :=
  .success (fun c hc _ => h c hc) fun hm => absurd hm hd

/-- One check decides both results. -/
theorem Alike.ite {p : Prop} [Decidable p] {a a' b b' : Result} (ht : p → Alike i s s' a a')
    (he : ¬ p → Alike i s s' b b') :
    Alike i s s' (if p then a else b) (if p then a' else b') := by
  split
  · exact ht ‹_›
  · exact he ‹_›

/-- The same bytes of SRC are given to the rest of the command. -/
theorem Alike.withSource {k k' : List Byte → Result} (h : commandAgree i s s')
    (hr : commandReadsSource i = true) (hk : ∀ bs, Alike i s s' (k bs) (k' bs)) :
    Alike i s s' (withSource s k) (withSource s' k') := by
  unfold Machine.withSource
  rw [← h.srcRead_eq hr]
  cases srcRead s s.argAddr.toNat s.argLen.toNat with
  | bounds => exact .plain _
  | unwritten => exact .fault _
  | bytes bs => exact hk bs

/-- The same record of STG is given to the rest of the command. -/
theorem Alike.withStage {k k' : Chunk → Result} (h : s.stg = s'.stg)
    (hk : ∀ c, Alike i s s' (k c) (k' c)) : Alike i s s' (withStage s k) (withStage s' k') := by
  unfold Machine.withStage
  rw [← h]
  cases s.stg with
  | none => exact .plain _
  | some c => exact hk c

/-- The same bytes are written from DST_ADDR on. -/
theorem Alike.emitBytes (hp : s.params = s'.params) (ha : s.dstAddr = s'.dstAddr)
    (hw : commandWrites i = [.dst, .resLen]) (out : List Byte) :
    Alike i s s' (emitBytes s out) (emitBytes s' out) := by
  unfold Machine.emitBytes
  rw [← hp, ← ha]
  refine .ite (fun _ => .plain _) fun _ => .success ?_ fun _ j hj => ?_
  · simp [hw, Component.same]
  · have hout : j < out.length := Nat.lt_of_lt_of_le hj (by simpa using Nat.mod_le _ _)
    rw [← ha, Memory.read_writeRange_inside _ _ hout, Memory.read_writeRange_inside _ _ hout]

/-- The same record of CONT is staged. -/
theorem Alike.stageChunk {u u' : State} (hp : s.params = s'.params) (k : Chunk)
    (hs : Alike i s s' (succeed (u.loadStg k k.len)) (succeed (u'.loadStg k k.len))) :
    Alike i s s' (stageChunk s u k) (stageChunk s' u' k) := by
  unfold Machine.stageChunk
  rw [← hp]
  exact .ite (fun _ => .plain _) fun _ => hs

/-- What R18 claims of two results that are alike. -/
theorem Alike.result {r r' : Result} (h : Alike i s s' r r') :
    (∀ f, r = .fault f → r' = .fault f)
    ∧ ∀ t, r = .next t → ∃ t', r' = .next t' ∧ t'.errcode = t.errcode
      ∧ (t.errcode = .checksumMismatch →
          t'.errStored = t.errStored ∧ t'.errComputed = t.errComputed)
      ∧ (t.errcode = .none →
          (∀ c ∈ commandWrites i, c ≠ .dst → Component.same t t' c)
          ∧ (.dst ∈ commandWrites i → ∀ j, j < t.resLen.toNat →
              t'.dst.read (s'.dstAddr.toNat + j) = t.dst.read (s.dstAddr.toNat + j))) := by
  cases h with
  | fault f => exact ⟨fun _ hf => hf, fun t ht => nomatch ht⟩
  | plain c hc =>
    simp only [List.mem_cons, List.not_mem_nil, or_false, not_or] at hc
    refine ⟨fun _ hf => (nomatch hf), fun t ht => ?_⟩
    obtain rfl := raise_eq_next.1 ht
    exact ⟨_, rfl, rfl, fun hm => absurd hm hc.2, fun hn => absurd hn hc.1⟩
  | mismatch stored computed =>
    refine ⟨fun _ hf => (nomatch hf), fun t ht => ?_⟩
    obtain rfl := raise_eq_next.1 ht
    exact ⟨_, rfl, rfl, fun _ => ⟨rfl, rfl⟩, fun hn => nomatch hn⟩
  | success hw hd =>
    refine ⟨fun _ hf => (nomatch hf), fun t ht => ?_⟩
    obtain rfl := succeed_eq_next.1 ht
    exact ⟨_, rfl, rfl, fun hm => (nomatch hm),
      fun _ => ⟨fun c hc hne => Component.same_complete.2 (hw c hc hne), hd⟩⟩

end

/-- Every command ends alike in two states that agree on what it reads. -/
theorem exec_alike {i : Instr} {s s' : State} (h : commandAgree i s s') :
    Alike i s s' (exec i s) (exec i s') := by
  have hp := h.params
  cases i with
  | nop => exact .of_same (by simp [commandWrites])
  | softReset => exact .of_same (by simp [commandWrites, Component.same])
  | crcInit => exact .of_same (by simp [commandWrites, Component.same])
  | crcByte =>
    have hin : s.crcIn = s'.crcIn := h.reads .crcIn (by decide)
    have hst : s.crcState = s'.crcState := h.reads .crcState (by decide)
    exact .of_same (by simp [commandWrites, Component.same, hin, hst])
  | crcBuf =>
    have hst : s.crcState = s'.crcState := h.reads .crcState (by decide)
    exact .withSource h rfl fun _ =>
      .of_same (by simp [commandWrites, Component.same, hst])
  | typeFromStr =>
    exact .withSource h rfl fun bs => .ite (fun _ => .plain _) fun _ =>
      .ite (fun _ => .plain _) fun _ =>
        .of_same (by simp [commandWrites, Component.same])
  | chunkNew =>
    have hl : s.argLen = s'.argLen := h.reads .argLen (by decide)
    have ht : s.typeReg = s'.typeReg := h.reads .type (by decide)
    refine .withSource h rfl fun d => ?_
    rw [← hp, ← hl, ← ht]
    exact .ite (fun _ => .plain _) fun _ =>
      .of_same (by simp [commandWrites, Component.same])
  | chunkParse =>
    refine .withSource h rfl fun f => ?_
    rw [← hp]
    cases he : parseFrame s.params f with
    | ok k => exact .of_same (by simp [commandWrites, Component.same])
    | error e =>
      rcases parseFrame_error he with rfl | rfl | ⟨a, b, rfl⟩
      · exact .plain _
      · exact .plain _
      · exact .mismatch a b
  | chunkEmit =>
    exact .withStage (h.reads .stg (by decide)) fun _ =>
      .emitBytes hp (h.reads .dstAddr (by decide)) rfl _
  | chunkDataOut =>
    exact .withStage (h.reads .stg (by decide)) fun _ =>
      .emitBytes hp (h.reads .dstAddr (by decide)) rfl _
  | contClear => exact .of_same (by simp [commandWrites, Component.same])
  | contParse =>
    refine .withSource h rfl fun stream => ?_
    rw [← hp]
    cases he : walk s.params stream with
    | ok ks => exact .of_same (by simp [commandWrites, Component.same])
    | error e =>
      rcases walk_error he with rfl | rfl | rfl | ⟨a, b, rfl⟩
      · exact .plain _
      · exact .plain _
      · exact .plain _
      · exact .mismatch a b
  | contAppend =>
    have hc : s.cont = s'.cont := h.reads .cont (by decide)
    refine .withStage (h.reads .stg (by decide)) fun k => ?_
    rw [← hp, ← hc]
    exact .ite (fun _ => .plain _) fun _ => .ite (fun _ => .plain _) fun _ =>
      .of_same (by simp [commandWrites, Component.same])
  | contRemove =>
    have hc : s.cont = s'.cont := h.reads .cont (by decide)
    have ht : s.typeReg = s'.typeReg := h.reads .type (by decide)
    show Alike _ s s' (execContRemove s) (execContRemove s')
    unfold execContRemove
    rw [← hc, ← ht]
    cases firstOf s.cont s.typeReg with
    | none => exact .plain _
    | some n =>
      dsimp only
      cases s.cont[n]? with
      | none => exact .plain _
      | some k =>
        exact .stageChunk hp k (.of_same (by simp [commandWrites, Component.same]))
  | contFind =>
    have hc : s.cont = s'.cont := h.reads .cont (by decide)
    have ht : s.typeReg = s'.typeReg := h.reads .type (by decide)
    show Alike _ s s' (execContFind s) (execContFind s')
    unfold execContFind
    rw [← hc, ← ht]
    cases firstOf s.cont s.typeReg with
    | none => exact .of_same (by simp [commandWrites, Component.same])
    | some n => exact .of_same (by simp [commandWrites, Component.same])
  | contGet =>
    have hc : s.cont = s'.cont := h.reads .cont (by decide)
    have hn : s.index = s'.index := h.reads .index (by decide)
    show Alike _ s s' (execContGet s) (execContGet s')
    unfold execContGet
    rw [← hc, ← hn]
    cases s.cont[s.index.toNat]? with
    | none => exact .plain _
    | some k =>
      exact .stageChunk hp k (.of_same (by simp [commandWrites, Component.same]))
  | contEmit =>
    have hc : s.cont = s'.cont := h.reads .cont (by decide)
    show Alike _ s s' (emitBytes s (containerStream s.cont)) (emitBytes s' (containerStream s'.cont))
    rw [← hc]
    exact .emitBytes hp (h.reads .dstAddr (by decide)) rfl _

/-- Settles O43: the two runs end alike (`exec_alike`), which is what R18 says of them. -/
theorem resultDependsOnlyOnWhatIsRead : Obligations.ResultDependsOnlyOnWhatIsRead :=
  fun _ _ _ h => (exec_alike h).result

end Sys2Proof.Machine
end

section
/-! PROOFS. The state and its registers (10_state.md): what the registers read and the host's accesses to them, how a
command completes, what a command and a step do to STG, CONT and the buffers, the invariants. -/

namespace Sys2Proof.Machine

/-! ### What the registers read (R23 to R38) -/

/-- A truth value placed at bit `n` is seen at bit `n` only. -/
theorem getLsbD_flagBit (b : Bool) {n : Nat} (hn : n < 32) (i : Nat) :
    (flagBit b n).getLsbD i = (decide (i = n) && b) := by
  rw [flagBit, BitVec.getLsbD_shiftLeft, BitVec.getLsbD_setWidth, BitVec.getLsbD_ofBool]
  rcases Nat.lt_trichotomy i n with h | rfl | h
  · simp [h, Nat.ne_of_lt h]
  · simp [hn]
  · simp [show i ≠ n by omega, show i - n ≠ 0 by omega]

/-- STATUS.ERR is set by every error kind. -/
theorem State.errFlag_eq (s : State) : s.errFlag = (s.errcode != .none) := by
  rw [State.errFlag]
  cases s.errcode <;> rfl

/-- Settles O16: each truth value of STATUS stands at its own bit (`getLsbD_flagBit`). -/
theorem statusFields : Obligations.StatusFields := by
  intro s i
  simp only [regRead, statusWord, BitVec.getLsbD_or, getLsbD_flagBit, Nat.reduceLT, State.errFlag_eq,
    State.stgValid]
  by_cases hi : i < 5
  · interval_cases i <;> simp
  · simp [show i ≠ 0 by omega, show i ≠ 1 by omega, show i ≠ 2 by omega, show i ≠ 3 by omega,
      show i ≠ 4 by omega]

/-- A packed tag holds its bytes in order (R29). -/
@[simp] theorem be32bytes_toWord (t : Tag) : be32bytes t.toWord = t.bytes := by
  simp [be32bytes, Tag.toWord, Tag.bytes, extract_word32_0, extract_word32_1, extract_word32_2,
    extract_word32_3]

/-- Settles O18: each view is computed from what it shows. -/
theorem readOnlyViews : Obligations.ReadOnlyViews := by
  intro s
  have hcrcIn : regRead s .crcIn &&& 0xFFFFFF00 = 0 := by
    show s.crcIn.setWidth 32 &&& 0xFFFFFF00 = 0
    apply BitVec.eq_of_getLsbD_eq
    intro i _
    rw [BitVec.getLsbD_and, BitVec.getLsbD_setWidth]
    by_cases hi : i < 8
    · interval_cases i <;> simp
    · simp [BitVec.getLsbD_of_ge s.crcIn i (by omega)]
  have hfull : ∀ k, s.stg = some k → be32bytes (regRead s .stgType) = k.type.bytes
      ∧ regRead s .stgLen = BitVec.ofNat 32 k.data.length ∧ regRead s .stgCrc = k.crc := by
    intro k hk
    simp [regRead, hk, Chunk.len]
  have hempty : s.stg = none →
      regRead s .stgType = 0 ∧ regRead s .stgLen = 0 ∧ regRead s .stgCrc = 0 := by
    intro hn
    simp [regRead, hn]
  exact ⟨rfl, rfl, hcrcIn, hfull, hempty, rfl, rfl, rfl, signature_eq_registers, rfl, rfl, rfl, rfl, rfl⟩

/-! ### The host's register writes (R23, R39, R52) -/

/-- Exactly the RW registers take a write. -/
theorem regWrite_isSome (s : State) (r : RegName) (w : Word) : (regWrite s r w).isSome = r.writable := by
  cases r <;> rfl

/-- All that a register write can do: a CMD write latches a command, any other stores a word in one of six registers. -/
theorem regWrite_cases {s s' : State} {r : RegName} {w : Word} (h : regWrite s r w = some s') :
    s' = s.writeCmd w
    ∨ s' = { s with
        argAddr := s'.argAddr, argLen := s'.argLen, dstAddr := s'.dstAddr
        typeReg := s'.typeReg, index := s'.index, crcIn := s'.crcIn } := by
  have hw : r.writable = true := by rw [← regWrite_isSome s r w, h, Option.isSome_some]
  cases r with
  | cmd => exact .inl (Option.some.inj h).symm
  | argAddr | argLen | dstAddr | type | index | crcIn =>
    obtain rfl := Option.some.inj h
    exact .inr rfl
  | _ => exact absurd hw (by decide)

/-- A register that was just written reads the word, CRC_IN its bits 7:0 (R33); the host's moving on changes no
register. -/
theorem regRead_of_regWrite (s : State) {r : RegName} (hr : r.writable = true) (w : Word) :
    ∃ s', regWrite s r w = some s'
      ∧ ∀ g, regRead { s' with host := g } r = if r = .crcIn then w &&& 0xFF else w := by
  cases r with
  | cmd | argAddr | argLen | dstAddr | type | index => exact ⟨_, rfl, fun _ => rfl⟩
  | crcIn =>
    refine ⟨_, rfl, fun _ => ?_⟩
    show (w.setWidth 8).setWidth 32 = w &&& 0xFF
    have hmask : w.toNat &&& 255 = w.toNat % 256 := Nat.and_two_pow_sub_one_eq_mod w.toNat 8
    have hlt : w.toNat % 256 < 4294967296 := by omega
    exact BitVec.eq_of_toNat_eq (by simp [hmask, hlt])
  | _ => exact absurd hr (by decide)

/-- A word access at the offset of an RW register is answered (R51). -/
theorem busAccess_regWrite {s s' : State} {r : RegName} {w : Word} (h : regWrite s r w = some s') :
    busAccess s (.regWrite r.offset w) = .ok (s', .nothing) := by
  simp [busAccess, Access.regWrite, regAccess, h]

/-- Settles O60: the registers that store a word read it, also right after the host's write to them. -/
theorem storedRegistersReadBack : Obligations.StoredRegistersReadBack := by
  refine ⟨fun s => ⟨rfl, rfl, rfl, rfl, rfl, rfl, rfl, rfl, rfl, rfl, ?_⟩, fun s r w hr hnext => ?_⟩
  · show (s.crcIn.setWidth 32).extractLsb' 0 8 = s.crcIn
    rw [← BitVec.setWidth_eq_extractLsb' (by decide)]
    simp
  · have hw : r.writable = true := by
      revert hr
      cases r <;> decide
    obtain ⟨s', hs', hread⟩ := regRead_of_regWrite s.afterLevel hw w
    exact ⟨_, step_of_access_ok hnext (busAccess_regWrite hs'), hread _⟩

/-- Settles O7: the access is answered, with the effect of `State.writeCmd`. -/
theorem cmdWriteLatchesCommand : Obligations.CmdWriteLatchesCommand := by
  intro s w hnext
  exact step_of_access_ok hnext (busAccess_regWrite (r := .cmd) rfl)

/-- The registers stand at the multiples of 4 below 0x74 (R23). -/
theorem RegName.offset_form (r : RegName) : r.offset % 4 = 0 ∧ r.offset < 0x74 := by
  cases r <;> decide

/-- The offsets of the RW registers (R23). -/
theorem RegName.offset_of_writable {r : RegName} (h : r.writable = true) :
    r.offset ∈ [0x04, 0x10, 0x14, 0x18, 0x1C, 0x24, 0x2C] := by
  revert h
  cases r <;> decide

/-- A REG access is ProtocolAccess, or a word access at the offset of a register (R39, R52). -/
theorem regAccess_cases (width : Width) (off : Nat) :
    regAccess width off = .error .protocolAccess
    ∨ ∃ r, regAccess width off = .ok r ∧ width = .word ∧ r.offset = off := by
  unfold regAccess
  split
  · exact .inr ⟨_, rfl, rfl, RegName.offset_of_atOffset ‹_›⟩
  · exact .inl rfl

/-- Settles O10: a REG access that is answered is a word access at a register's offset, a write one at an RW
register's; every other is ProtocolAccess. -/
theorem forbiddenRegisterAccessFaults : Obligations.ForbiddenRegisterAccessFaults := by
  intro s width off w
  refine ⟨fun hnext hbad => step_of_access_error hnext ?_, fun hnext hbad => step_of_access_error hnext ?_⟩
  · rcases regAccess_cases width off with herr | ⟨r, -, hword, hoff⟩
    · rw [busAccess, herr]
    · have hform := r.offset_form
      have hout := hbad.resolve_left (· hword)
      omega
  · rcases regAccess_cases width off with herr | ⟨r, hok, hword, hoff⟩
    · rw [busAccess, herr]
    · have hro : r.writable ≠ true := fun hw => by
        have hform := r.offset_form
        have hmem := hoff ▸ RegName.offset_of_writable hw
        rcases hbad.resolve_left (· hword) with hmod | hout
        · omega
        · exact hout hmem
      have hnone : regWrite s.afterLevel r w = none := by
        rwa [← Option.not_isSome_iff_eq_none, regWrite_isSome]
      rw [busAccess, hok]
      simp only [hnone]

/-! ### The reset state (R23, R48) and the turns of the agents (R46) -/

/-- The type flags of four zero bytes: no letters, every bit 5 clear (41 R92 to R98). -/
theorem tflags_zero : tflags (Tag.ofWord 0#32) = 0x1C#32 := by decide

/-- Settles O6: the reset step leaves `State.resetWith` with the host, the levels and the count kept. -/
theorem resetValuesOfEveryComponent : Obligations.ResetValuesOfEveryComponent := by
  unfold Obligations.ResetValuesOfEveryComponent
  intro restored
  have hrestored : ∀ p h l n,
      restored p { State.resetWith p with host := h, resetIn := l, issued := n } := fun p h l n =>
    ⟨by simp [RegName.all, regRead, statusWord, State.errFlag, State.stgValid, flagBit, ErrCode.code,
        tflags_zero, sigHi, sigLo], rfl, rfl, rfl, fun _ => rfl, fun _ => rfl, rfl, rfl⟩
  exact ⟨rfl, fun p => hrestored p .idle [] 0,
    fun s levels hin => ⟨_, step_reset hin, hrestored s.params s.host levels s.issued⟩⟩

/-- Settles O46: after reset the chunk storage and the buffers are empty, BUSY = DONE = 0 and no error is reported. -/
theorem resetMeetsInvariants : Obligations.ResetMeetsInvariants := by
  intro p
  refine ⟨?_, ?_, ?_, rfl⟩
  · simp [State.chunksOk]
  · simp [State.buffersOk]
  · simp [State.handshakeOk]

/-- Settles O3: the sequencer's turn runs what LATCH decodes to. -/
theorem sequencerRunsLatchedCommand : Obligations.SequencerRunsLatchedCommand := by
  intro s i hseq hdec
  rw [step_of_sequencerNext hseq, sequencerTurn, State.afterLevel_latch, hdec]

/-- The turn of a host that has ended holds the state (log 8). -/
theorem hostTurn_of_ended {s : State} (h : s.host.ended = true) : hostTurn s = .next s := by
  unfold HostAgent.ended at h
  unfold hostTurn
  split at h
  next hop => rw [hop]
  next hop => rw [hop]
  next => exact nomatch h

/-- Settles O15: the step is the turn of the ended host. -/
theorem idleBlockHoldsState : Obligations.IdleBlockHoldsState := by
  intro s hend
  have hmoves : s.hostMoves → step s = .next s.hostTurnTaken := fun h =>
    (step_of_hostMoves h).trans (hostTurn_of_ended hend)
  refine ⟨fun hlow hidle => ?_, hmoves⟩
  rw [hmoves ⟨hlow, by simp [hidle]⟩, State.hostTurnTaken_of_idle hidle]

/-! ### How a command completes (R46, R123, R124) -/

/-- A command completes with BUSY = 0 and DONE = 1, or meets the model fault of its SRC range. -/
theorem Ends.completes {i : Instr} {s : State} {r : Result} (h : Ends i s r) :
    (∃ t, r = .next t ∧ t.busy = false ∧ t.done = true)
    ∨ (commandReadsSource i = true ∧ s.srcUnwritten ∧ r = .fault .unwrittenSource) := by
  cases h with
  | unwritten hr hu => exact .inr ⟨hr, hu, rfl⟩
  | error e _ _ => exact .inl ⟨_, rfl, rfl, rfl⟩
  | success s' => exact .inl ⟨_, rfl, rfl, rfl⟩

/-- A command with a next state has cleared BUSY. -/
theorem exec_clears_busy {i : Instr} {s t : State} (h : exec i s = .next t) : t.busy = false := by
  rcases (h ▸ exec_ends i s).completes with ⟨u, hu, hbusy, -⟩ | ⟨-, -, hfault⟩
  · exact Host.Outcome.next.inj hu ▸ hbusy
  · exact nomatch hfault

/-- A command with a next state reports success or one of its own errors. -/
theorem Ends.reports {i : Instr} {s t : State} (h : Ends i s (.next t)) :
    t.errcode = .none ∨ t.errcode ∈ commandRaises i := by
  cases h with
  | error e hc _ => exact .inr hc
  | success s' => exact .inl rfl

/-- Settles O36: it is what every way to end (`exec_ends`) has in common. -/
theorem commandCompletesOrUnwritten : Obligations.CommandCompletesOrUnwritten :=
  fun i s => (exec_ends i s).completes

/-- Settles O39: an error is one of the command's own (`Ends.reports`); the numbers are those of `ErrCode.code`. -/
theorem commandReportsItsOwnErrors : Obligations.CommandReportsItsOwnErrors := by
  refine ⟨fun i s t h => (h ▸ exec_ends i s).reports, fun s => ?_⟩
  have hread : ∀ c, s.errcode = c → regRead s .errcode = c.code.setWidth 32 := fun _ h => h ▸ rfl
  exact ⟨hread _, hread _, hread _, hread _, hread _, hread _, hread _, hread _, hread _, hread _, hread _⟩

/-! ### What a command does to STG, CONT and DST (R41, R43, R45) -/

/-- All that a command with a next state `t` can do to STG, CONT and DST. -/
inductive Stores (i : Instr) (s t : State) : Prop where
  | kept (hg : t.stg = s.stg) (hc : t.cont = s.cont) (hd : t.dst = s.dst)
  /-- SOFT_RESET. -/
  | cleared (hi : i = .softReset) (hg : t.stg = none) (hc : t.cont = []) (hd : t.dst = s.dst)
  /-- CHUNK_NEW and CHUNK_PARSE load a right record. -/
  | loaded (k : Chunk) (hk : k.crc = chunkCrc k.type k.data)
      (hl : k.data.length ≤ s.params.stgCap.toNat)
      (hg : t.stg = some k) (hc : t.cont = s.cont) (hd : t.dst = s.dst)
  /-- CONT_REMOVE and CONT_GET stage a record of CONT. -/
  | taken (k : Chunk) (hk : k ∈ s.cont) (hl : k.data.length ≤ s.params.stgCap.toNat)
      (hg : t.stg = some k) (hc : t.cont.Sublist s.cont) (hd : t.dst = s.dst)
  /-- CONT_CLEAR and CONT_PARSE. -/
  | replaced (hk : storable s.params t.cont) (hg : t.stg = s.stg) (hd : t.dst = s.dst)
  /-- CONT_APPEND. -/
  | appended (k : Chunk) (hk : s.stg = some k) (hm : s.cont.length + 1 ≤ s.params.maxChunks.toNat)
      (hu : dataTotal s.cont + k.data.length ≤ s.params.storeCap.toNat)
      (hg : t.stg = s.stg) (hc : t.cont = s.cont ++ [k]) (hd : t.dst = s.dst)
  /-- The three emitting commands. -/
  | emitted (out : List Byte) (hf : s.dstFits out.length) (hg : t.stg = s.stg) (hc : t.cont = s.cont)
      (hd : t.dst = s.dst.writeRange s.dstAddr.toNat out)

/-- A result of the command `i` on `s`, with what its pending writes do to STG, CONT and DST; SRC and the capacities
are kept (R54, R38). -/
inductive EndsStoring (i : Instr) (s : State) : Result → Prop where
  | fault (f : Fault) : EndsStoring i s (.fault f)
  | error (e : CmdError) : EndsStoring i s (raise e s)
  | success {t : State} (h : Stores i s (t.complete .none)) (hp : t.params = s.params := by rfl)
      (hs : t.src = s.src := by rfl) : EndsStoring i s (succeed t)

section
variable {i : Instr} {s : State}

theorem EndsStoring.withSource {k : List Byte → Result}
    (h : ∀ bs, s.srcHolds bs → EndsStoring i s (k bs)) : EndsStoring i s (withSource s k) := by
  rcases withSource_cases s k with hr | hr | ⟨bs, hbs, hr⟩
  · exact hr ▸ .error _
  · exact hr ▸ .fault _
  · exact hr ▸ h bs hbs

theorem EndsStoring.withStage {k : Chunk → Result}
    (h : ∀ c, s.stg = some c → EndsStoring i s (k c)) : EndsStoring i s (withStage s k) := by
  rcases withStage_cases s k with ⟨-, hr⟩ | ⟨c, hc, hr⟩
  · exact hr ▸ .error _
  · exact hr ▸ h c hc

theorem EndsStoring.emitBytes (out : List Byte) : EndsStoring i s (emitBytes s out) := by
  rcases emitBytes_cases s out with ⟨-, hr⟩ | ⟨hf, hr⟩
  · exact hr ▸ .error _
  · exact hr ▸ .success (.emitted out hf rfl rfl rfl)

/-- A record `k` of CONT is staged, the other pending writes being those of `u`. -/
theorem EndsStoring.stageChunk {u : State} {k : Chunk} (hk : k ∈ s.cont) (hc : u.cont.Sublist s.cont)
    (hd : u.dst = s.dst := by rfl) (hp : u.params = s.params := by rfl) (hs : u.src = s.src := by rfl) :
    EndsStoring i s (stageChunk s u k) := by
  rcases stageChunk_cases s u k with ⟨-, hr⟩ | ⟨hl, hr⟩
  · exact hr ▸ .error _
  · exact hr ▸ .success (.taken k hk hl rfl hc hd) hp hs

/-- A check of the command fails with an error, or the rest of the command goes on. -/
theorem EndsStoring.unless {p : Prop} [Decidable p] {e : CmdError} {r : Result}
    (h : ¬ p → EndsStoring i s r) : EndsStoring i s (if p then raise e s else r) := by
  split
  · exact .error e
  · exact h ‹_›

end

/-- A record the permissive parse accepts is right and fits STG (42 R101). -/
theorem parseFrame_ok {p : Params} {f : List Byte} {k : Chunk} (h : parseFrame p f = .ok k) :
    k.crc = chunkCrc k.type k.data ∧ k.data.length ≤ p.stgCap.toNat := by
  rcases parseFrame_cases p f with ⟨e, he⟩ | ⟨l, hl, hok⟩
  · rw [he] at h
    exact nomatch h
  · obtain rfl := Except.ok.inj (hl.symm.trans h)
    exact hok

/-- Every command ends in one of these ways. -/
theorem exec_endsStoring (i : Instr) (s : State) : EndsStoring i s (exec i s) := by
  cases i with
  | nop => exact .success (.kept rfl rfl rfl)
  | softReset => exact .success (.cleared rfl rfl rfl rfl)
  | crcInit => exact .success (.kept rfl rfl rfl)
  | crcByte => exact .success (.kept rfl rfl rfl)
  | crcBuf => exact .withSource fun _ _ => .success (.kept rfl rfl rfl)
  | typeFromStr =>
    exact .withSource fun _ _ => .unless fun _ => .unless fun _ => .success (.kept rfl rfl rfl)
  | chunkNew =>
    exact .withSource fun d hd => .unless fun hcap =>
      .success (.loaded _ rfl (hd.1.trans_le (Nat.le_of_not_lt hcap)) rfl rfl rfl)
  | chunkParse =>
    refine .withSource fun f _ => ?_
    cases hf : parseFrame s.params f with
    | error e => exact .error e
    | ok k =>
      obtain ⟨hk, hl⟩ := parseFrame_ok hf
      exact .success (.loaded k hk hl rfl rfl rfl)
  | chunkEmit => exact .withStage fun _ _ => .emitBytes _
  | chunkDataOut => exact .withStage fun _ _ => .emitBytes _
  | contClear => exact .success (.replaced (by simp [storable]) rfl rfl)
  | contParse =>
    refine .withSource fun stream _ => ?_
    cases hw : walk s.params stream with
    | error e => exact .error e
    | ok ks => exact .success (.replaced (walk_ok hw).2 rfl rfl)
  | contAppend =>
    exact .withStage fun k hk => .unless fun hm => .unless fun hu =>
      .success (.appended k hk (Nat.le_of_not_lt hm) (Nat.le_of_not_lt hu) rfl rfl rfl)
  | contRemove =>
    show EndsStoring _ s (execContRemove s)
    unfold execContRemove
    split
    · exact .error _
    · split
      · exact .error _
      · exact .stageChunk (List.mem_of_getElem? ‹_›) (List.eraseIdx_sublist ..)
  | contFind =>
    show EndsStoring _ s (execContFind s)
    unfold execContFind
    split
    · exact .success (.kept rfl rfl rfl)
    · exact .success (.kept rfl rfl rfl)
  | contGet =>
    show EndsStoring _ s (execContGet s)
    unfold execContGet
    split
    · exact .error _
    · exact .stageChunk (List.mem_of_getElem? ‹_›) (List.Sublist.refl _)
  | contEmit => exact .emitBytes _

/-- What a command with a next state does to the capacities, SRC and the chunk storage. -/
theorem exec_stores {i : Instr} {s t : State} (h : exec i s = .next t) :
    t.params = s.params ∧ t.src = s.src ∧ Stores i s t := by
  have hends := exec_endsStoring i s
  rw [h] at hends
  cases hends with
  | error e =>
    rw [raise_frame]
    exact ⟨rfl, rfl, .kept rfl rfl rfl⟩
  | success hst hp hsrc => exact ⟨hp, hsrc, hst⟩

section
variable {i : Instr} {s t : State}

/-- DST is kept, or a range of it is written (R57). -/
theorem Stores.dst_cases (h : Stores i s t) :
    t.dst = s.dst
    ∨ ∃ out : List Byte, s.dstFits out.length ∧ t.dst = s.dst.writeRange s.dstAddr.toNat out := by
  cases h with
  | emitted out hf _ _ hd => exact .inr ⟨out, hf, hd⟩
  | kept _ _ hd | cleared _ _ _ hd | loaded _ _ _ _ _ hd | taken _ _ _ _ _ hd | replaced _ _ hd
  | appended _ _ _ _ _ _ hd => exact .inl hd

/-- Only SOFT_RESET empties STG (R41). -/
theorem Stores.softReset_of_stg_none (h : Stores i s t) (hs : s.stg ≠ none) (ht : t.stg = none) :
    i = .softReset := by
  cases h with
  | cleared hi _ _ _ => exact hi
  | loaded _ _ _ hg _ _ | taken _ _ _ hg _ _ => exact nomatch hg.symm.trans ht
  | kept hg _ _ | replaced _ hg _ | appended _ _ _ _ hg _ _ | emitted _ _ hg _ _ =>
    exact absurd (hg.symm.trans ht) hs

/-- Records taken away from a storable sequence leave a storable one. -/
theorem storable_sublist {p : Params} {ks ls : List Chunk} (h : storable p ls) (hs : ks.Sublist ls) :
    storable p ks := by
  obtain ⟨hm, hu, hc⟩ := h
  exact ⟨hs.length_le.trans hm, (hs.map _).sum_le_sum (fun _ _ => Nat.zero_le _) |>.trans hu,
    fun k hk => hc k (hs.subset hk)⟩

/-- A right record appended where the capacities leave room. -/
theorem storable_append {p : Params} {ks : List Chunk} {k : Chunk} (h : storable p ks)
    (hk : k.crc = chunkCrc k.type k.data) (hm : ks.length + 1 ≤ p.maxChunks.toNat)
    (hu : dataTotal ks + k.data.length ≤ p.storeCap.toNat) : storable p (ks ++ [k]) := by
  obtain ⟨-, -, hc⟩ := h
  refine ⟨by simpa using hm, by simpa using hu, fun l hl => ?_⟩
  rcases List.mem_append.1 hl with hl | hl
  · exact hc l hl
  · rw [List.mem_singleton.1 hl]
    exact hk

/-- The record STG may hold (R41, R44). -/
def stageable (p : Params) (g : Option Chunk) : Prop :=
  ∀ k, g = some k → k.crc = chunkCrc k.type k.data ∧ k.data.length ≤ p.stgCap.toNat

theorem stageable_some {p : Params} {k : Chunk} (hk : k.crc = chunkCrc k.type k.data)
    (hl : k.data.length ≤ p.stgCap.toNat) : stageable p (some k) := by
  rintro _ ⟨⟩
  exact ⟨hk, hl⟩

/-- The invariants of R44 and R41 are one on CONT and one on STG. -/
theorem chunksOk_iff (s : State) : s.chunksOk ↔ storable s.params s.cont ∧ stageable s.params s.stg := by
  simp [State.chunksOk, storable, stageable, and_assoc]

/-- A command keeps the chunk invariants. -/
theorem Stores.chunksOk (h : Stores i s t) (hp : t.params = s.params) (hs : s.chunksOk) : t.chunksOk := by
  obtain ⟨hcont, hstg⟩ := (chunksOk_iff s).1 hs
  rw [chunksOk_iff, hp]
  cases h with
  | kept hg hc _ | emitted _ _ hg hc _ =>
    rw [hg, hc]
    exact ⟨hcont, hstg⟩
  | cleared _ hg hc _ =>
    rw [hg, hc]
    exact ⟨by simp [storable], nofun⟩
  | loaded k hk hl hg hc _ =>
    rw [hg, hc]
    exact ⟨hcont, stageable_some hk hl⟩
  | taken k hk hl hg hc _ =>
    rw [hg]
    exact ⟨storable_sublist hcont hc, stageable_some (hcont.2.2 k hk) hl⟩
  | replaced hk hg _ =>
    rw [hg]
    exact ⟨hk, hstg⟩
  | appended k hk hm hu hg hc _ =>
    rw [hg, hc]
    exact ⟨storable_append hcont (hstg k hk).1 hm hu, hstg⟩

end

/-! ### What a step does (R17, R46, R136) -/

/-- All that a step with a next state can be: the hardware reset, the sequencer's step for a command or for an illegal
word, or the host's turn. -/
inductive StepEnds (s : State) : State → Prop where
  | reset (hr : ¬ s.resetLow) (l : List Bool) : StepEnds s { s.hardReset with resetIn := l }
  | command {i : Instr} {t : State} (hq : s.sequencerNext) (hi : decode s.latch = .command i)
      (ht : exec i s.afterLevel = .next t) : StepEnds s t
  | illegal (hq : s.sequencerNext) : StepEnds s (s.afterLevel.complete .illegalCommand)
  | host {t : State} (hm : s.hostMoves) (ht : HostEffect s.hostTurnTaken t) : StepEnds s t

/-- A step with a next state ends in one of these ways. -/
theorem step_ends {s t : State} (h : step s = .next t) : StepEnds s t := by
  by_cases hm : s.hostMoves
  · rw [step_of_hostMoves hm] at h
    exact .host hm (hostTurn_effect h).1
  · rcases step_cases s with ⟨l, hin, hr⟩ | ⟨hq, hr⟩ | ⟨hl, d, -, hd, -⟩ | ⟨hl, hb, -⟩
    · obtain rfl := Host.Outcome.next.inj (hr.symm.trans h)
      exact .reset (by simp [State.resetLow, hin]) l
    · rw [hr] at h
      rcases sequencerTurn_cases s.afterLevel with ⟨i, hi, he⟩ | ⟨-, he⟩
      · exact .command hq hi (he.symm.trans h)
      · obtain rfl := raise_eq_next.1 (he.symm.trans h)
        exact .illegal hq
    · exact absurd ⟨hl, fun _ => by omega⟩ hm
    · exact absurd ⟨hl, fun hb' => by simp [hb] at hb'⟩ hm

/-- What the host's turn keeps: the capacities, the chunk storage and DST (R54), and SRC but for a cell it writes. -/
theorem HostEffect.storage {s t : State} (h : HostEffect s t) :
    t.params = s.params ∧ t.stg = s.stg ∧ t.cont = s.cont ∧ t.dst = s.dst
    ∧ (t.src = s.src ∨ ∃ i b, i < s.params.srcSize.toNat ∧ t.src = s.src.write i b) := by
  cases h with
  | nothing g => exact ⟨rfl, rfl, rfl, rfl, .inl rfl⟩
  | cell g i b hi => exact ⟨rfl, rfl, rfl, rfl, .inr ⟨i, b, hi, rfl⟩⟩
  | register g r w s' hw =>
    rcases regWrite_cases hw with rfl | hs'
    · exact ⟨rfl, rfl, rfl, rfl, .inl rfl⟩
    · rw [hs']
      exact ⟨rfl, rfl, rfl, rfl, .inl rfl⟩

/-- The host's turn keeps the handshake rule: it sets BUSY only by a CMD write, which clears DONE. -/
theorem HostEffect.handshakeOk {s t : State} (h : HostEffect s t) (hs : s.handshakeOk) : t.handshakeOk := by
  cases h with
  | nothing g => exact hs
  | cell g i b hi => exact hs
  | register g r w s' hw =>
    rcases regWrite_cases hw with rfl | hs'
    · simp [State.handshakeOk]
    · rw [hs']
      exact hs

/-- Settles O47: of the steps only a command can change the chunk storage otherwise than by emptying it
(`Stores.chunksOk`). -/
theorem everyStepKeepsChunkInvariants : Obligations.EveryStepKeepsChunkInvariants := by
  intro s t hs h
  cases step_ends h with
  | reset _ l => simp [State.chunksOk]
  | command _ _ ht =>
    obtain ⟨hp, -, hst⟩ := exec_stores ht
    exact hst.chunksOk hp hs
  | illegal _ => exact hs
  | host _ ht =>
    obtain ⟨hp, hg, hc, -, -⟩ := ht.storage
    rw [chunksOk_iff, hp, hg, hc]
    exact (chunksOk_iff s).1 hs

/-- Settles O48: a command writes DST by a range inside it, the host SRC by a cell inside it. -/
theorem everyStepKeepsBufferForm : Obligations.EveryStepKeepsBufferForm := by
  intro s t hs h
  cases step_ends h with
  | reset _ l => simp [State.buffersOk]
  | command _ _ ht =>
    obtain ⟨hp, hsrc, hst⟩ := exec_stores ht
    obtain ⟨hws, hwd, his, hid⟩ := hs
    rw [State.buffersOk, hp, hsrc]
    rcases hst.dst_cases with hd | ⟨out, hf, hd⟩
    · rw [hd]
      exact ⟨hws, hwd, his, hid⟩
    · rw [hd]
      exact ⟨hws, Memory.wf_writeRange hwd _ out, his, Memory.within_writeRange hid hf⟩
  | illegal _ => exact hs
  | host _ ht =>
    obtain ⟨hp, -, -, hd, hsrc⟩ := ht.storage
    obtain ⟨hws, hwd, his, hid⟩ := hs
    rw [State.buffersOk, hp, hd]
    rcases hsrc with hsrc | ⟨a, b, ha, hsrc⟩
    · rw [hsrc]
      exact ⟨hws, hwd, his, hid⟩
    · rw [hsrc]
      exact ⟨Memory.wf_write hws a b, hwd, Memory.within_write his ha b, hid⟩

/-- Settles O42: SRC changes by writes of a cell only, DST by writes of a range only. -/
theorem writtenCellsStayWritten : Obligations.WrittenCellsStayWritten := by
  intro s t hl h x
  cases step_ends h with
  | reset hr _ => exact absurd hl hr
  | command _ _ ht =>
    obtain ⟨-, hsrc, hst⟩ := exec_stores ht
    refine ⟨fun hx => hsrc ▸ hx, fun hx => ?_⟩
    rcases hst.dst_cases with hd | ⟨out, -, hd⟩
    · exact hd ▸ hx
    · exact hd ▸ Memory.isSome_read_writeRange hx _ out
  | illegal _ => exact ⟨id, id⟩
  | host _ ht =>
    obtain ⟨-, -, -, hd, hsrc⟩ := ht.storage
    refine ⟨fun hx => ?_, fun hx => hd ▸ hx⟩
    rcases hsrc with hsrc | ⟨a, b, -, hsrc⟩
    · exact hsrc ▸ hx
    · exact hsrc ▸ Memory.isSome_read_write hx a b

/-- Settles O44: of the commands only SOFT_RESET empties STG (`Stores.softReset_of_stg_none`), the host never. -/
theorem onlyResetsEmptyStage : Obligations.OnlyResetsEmptyStage := by
  intro s t hs h ht
  cases step_ends h with
  | reset hr _ => exact .inl hr
  | command hq hi he =>
    obtain ⟨-, -, hst⟩ := exec_stores he
    exact .inr ⟨hq, hst.softReset_of_stg_none hs ht ▸ hi⟩
  | illegal _ => exact absurd ht hs
  | host _ he =>
    obtain ⟨-, hg, -⟩ := he.storage
    exact absurd (hg.symm.trans ht) hs

/-- Settles O49: the sequencer's step clears BUSY, the reset both bits, and the host keeps the rule. -/
theorem busyAndDoneNeverTogether : Obligations.BusyAndDoneNeverTogether := by
  intro s t hs h
  cases step_ends h with
  | reset _ l => simp [State.handshakeOk]
  | command _ _ ht => simp [State.handshakeOk, exec_clears_busy ht]
  | illegal _ => simp [State.handshakeOk]
  | host _ ht => exact ht.handshakeOk hs

/-- No step changes the capacities (R38). -/
theorem step_params {s t : State} (h : step s = .next t) : t.params = s.params := by
  cases step_ends h with
  | reset _ l => rfl
  | command _ _ ht => exact (exec_stores ht).1
  | illegal _ => rfl
  | host _ ht => exact ht.storage.1

/-- Settles O51: the capacities are kept (`step_params`), and the CAP registers read them. -/
theorem capacitiesNeverChange : Obligations.CapacitiesNeverChange := by
  intro s t h
  simp [regRead, step_params h]

end Sys2Proof.Machine
end

section
/-! PROOFS. Memory and the bus (20_memory.md): the host's accesses to REG, SRC and DST, and who writes which cells of
the two buffers. -/

namespace Sys2Proof.Machine

/-! ### The host's accesses to registers (R51, R52) -/

/-- The level of the reset input is seen in no register. -/
@[simp] theorem regRead_afterLevel (s : State) (r : RegName) : regRead s.afterLevel r = regRead s r := by
  cases r <;> rfl

/-- A word read at the offset of a register is answered with what the register reads (R51). -/
theorem busAccess_regRead (s : State) (r : RegName) :
    busAccess s (.regRead r.offset) = .ok (s, .word (regRead s r)) := by
  simp [busAccess, Access.regRead, regAccess]

/-- Settles O9: the read is answered (`busAccess_regRead`), and the host takes the word in. -/
theorem registerReadHasNoSideEffect : Obligations.RegisterReadHasNoSideEffect := by
  intro s r hnext
  rw [step_of_access_ok hnext (busAccess_regRead s.afterLevel r), regRead_afterLevel]
  rfl

/-- The host's write to an RW register with BUSY = 0 has the effect of `regWrite`, and the host moves on (R51). -/
theorem step_of_regWrite {s s' : State} {r : RegName} {off : Nat} {w : Word}
    (hnext : s.hostNext (.access (.regWrite off w))) (hoff : off = r.offset)
    (hw : regWrite s.afterLevel r w = some s') :
    step s = .next { s' with host := s'.host.receive .nothing } :=
  step_of_access_ok (hoff ▸ hnext) (busAccess_regWrite hw)

/-- Settles O8: each of the six offsets is that of a register (`step_of_regWrite`); CRC_IN then reads the bits 7:0. -/
theorem registerWriteStoresWord : Obligations.RegisterWriteStoresWord := by
  intro s off w hnext
  refine ⟨fun h => step_of_regWrite (r := .argAddr) hnext h rfl,
    fun h => step_of_regWrite (r := .argLen) hnext h rfl,
    fun h => step_of_regWrite (r := .dstAddr) hnext h rfl,
    fun h => step_of_regWrite (r := .type) hnext h rfl,
    fun h => step_of_regWrite (r := .index) hnext h rfl, fun h => ?_⟩
  obtain ⟨s', hs', hread⟩ := regRead_of_regWrite s.afterLevel (r := .crcIn) rfl w
  obtain rfl := Option.some.inj hs'
  exact ⟨_, step_of_regWrite (r := .crcIn) hnext h rfl, hread s.host⟩

/-! ### The host's accesses to buffers (R51, R53 to R55) -/

/-- A byte access at an index in the buffer reaches the cell (R53). -/
theorem cellAccess_byte {i : Nat} {size : Word} (h : i < size.toNat) : cellAccess .byte i size = .ok i :=
  if_pos ⟨rfl, h⟩

/-- Every other access to a buffer is ProtocolAccess (R53). -/
theorem cellAccess_forbidden {width : Width} {i : Nat} {size : Word}
    (h : width ≠ .byte ∨ size.toNat ≤ i) : cellAccess width i size = .error .protocolAccess :=
  if_neg fun ⟨hbyte, hi⟩ => h.elim (· hbyte) (Nat.not_le_of_lt hi)

section
variable {s : State} {i : Nat} {b : Byte}

/-- A byte write at an index in SRC is answered with the cell written (R51). -/
theorem busAccess_write_src (hi : i < s.params.srcSize.toNat) (w : Word) :
    busAccess s (.write .src .byte i w) = .ok ({ s with src := s.src.write i (w.setWidth 8) }, .nothing) := by
  rw [busAccess, cellAccess_byte hi]

/-- A byte read of a written cell of SRC is answered with its byte (R51). -/
theorem busAccess_srcGet (hi : i < s.params.srcSize.toNat) (hb : s.src.read i = some b) :
    busAccess s (.srcGet i) = .ok (s, .byte b) := by
  simp only [Access.srcGet, busAccess, cellAccess_byte hi, hb]

/-- A byte read of an unwritten cell of SRC is UnwrittenSource (R55). -/
theorem busAccess_srcGet_unwritten (hi : i < s.params.srcSize.toNat) (hn : s.src.read i = none) :
    busAccess s (.srcGet i) = .error .unwrittenSource := by
  simp only [Access.srcGet, busAccess, cellAccess_byte hi, hn]

/-- A byte read of a written cell of DST is answered with its byte (R51). -/
theorem busAccess_dstGet (hi : i < s.params.dstSize.toNat) (hb : s.dst.read i = some b) :
    busAccess s (.dstGet i) = .ok (s, .byte b) := by
  simp only [Access.dstGet, busAccess, cellAccess_byte hi, hb]

/-- A byte read of an unwritten cell of DST is UnwrittenDest (R55). -/
theorem busAccess_dstGet_unwritten (hi : i < s.params.dstSize.toNat) (hn : s.dst.read i = none) :
    busAccess s (.dstGet i) = .error .unwrittenDest := by
  simp only [Access.dstGet, busAccess, cellAccess_byte hi, hn]

end

/-- Settles O11: a byte access in range reaches its cell, every other is forbidden (`cellAccess_forbidden`). -/
theorem sourceBufferAccess : Obligations.SourceBufferAccess := by
  intro s width i w
  refine ⟨fun hnext => ⟨?_, fun hbad => step_of_access_error hnext ?_⟩,
    fun hnext => ⟨?_, fun hbad => step_of_access_error hnext ?_⟩⟩
  · rintro rfl hi
    exact ⟨s.src.write i (w.setWidth 8), Memory.writeRange_holdsOver s.src i [w.setWidth 8],
      step_of_access_ok hnext (busAccess_write_src (s := s.afterLevel) hi w)⟩
  · rw [busAccess, State.afterLevel_params, cellAccess_forbidden hbad]
  · rintro rfl hi
    exact ⟨fun b hb => step_of_access_ok hnext (busAccess_srcGet (s := s.afterLevel) hi hb),
      fun hn => step_of_access_error hnext (busAccess_srcGet_unwritten (s := s.afterLevel) hi hn)⟩
  · rw [busAccess, State.afterLevel_params, cellAccess_forbidden hbad]

/-- Settles O12: the host has no write to DST, and reads it as it reads SRC. -/
theorem destinationBufferAccess : Obligations.DestinationBufferAccess := by
  intro s width i w
  refine ⟨fun hnext => step_of_access_error hnext rfl,
    fun hnext => ⟨?_, fun hbad => step_of_access_error hnext ?_⟩⟩
  · rintro rfl hi
    exact ⟨fun b hb => step_of_access_ok hnext (busAccess_dstGet (s := s.afterLevel) hi hb),
      fun hn => step_of_access_error hnext (busAccess_dstGet_unwritten (s := s.afterLevel) hi hn)⟩
  · rw [busAccess, State.afterLevel_params, cellAccess_forbidden hbad]

/-! ### The writers of the two buffers (R45, R54) -/

/-- A step is not both the host's and the sequencer's (R46). -/
theorem State.hostMoves.not_sequencerNext {s : State} (h : s.hostMoves) : ¬ s.sequencerNext :=
  fun ⟨_, hbusy, hdelay⟩ => h.2 hbusy hdelay

/-- Settles O41: a command keeps SRC (`exec_stores`), the host's turn keeps DST (`HostEffect.storage`). -/
theorem eachBufferHasOneWriter : Obligations.EachBufferHasOneWriter := by
  intro s t hlow h
  cases step_ends h with
  | reset hr _ => exact absurd hlow hr
  | command hq _ ht =>
    obtain ⟨-, hsrc, -⟩ := exec_stores ht
    exact ⟨fun _ => hsrc, fun hn => absurd hq hn⟩
  | illegal hq => exact ⟨fun _ => rfl, fun hn => absurd hq hn⟩
  | host hm ht =>
    obtain ⟨-, -, -, hdst, -⟩ := ht.storage
    exact ⟨fun hq => absurd hq hm.not_sequencerNext, fun _ => hdst⟩

/-! ### The row of a command (30 R74) and its DST range (R57) -/

/-- `t` differs from `s` only in what the row of the command `i` names as written on success, and in ERRCODE, BUSY and
DONE (30 R74). -/
def WritesOnlyRow (i : Instr) (s t : State) : Prop :=
  (∀ c, c ∉ commandWrites i → Component.same s t c)
  ∧ t.params = s.params ∧ t.latch = s.latch ∧ t.src = s.src ∧ t.host = s.host
  ∧ t.resetIn = s.resetIn ∧ t.delay = s.delay ∧ t.issued = s.issued

/-- A result of the command `i` on `s`: a success has written only the row of `i`. -/
inductive EndsInRow (i : Instr) (s : State) : Result → Prop where
  | fault (f : Fault) : EndsInRow i s (.fault f)
  | error (e : CmdError) (hne : e.code ≠ .none := by nofun) : EndsInRow i s (raise e s)
  | success {t : State}
      (h : WritesOnlyRow i s t := by
        refine ⟨?_, rfl, rfl, rfl, rfl, rfl, rfl, rfl⟩
        intro c
        cases c <;> simp [commandWrites, Component.same]) : EndsInRow i s (succeed t)

section
variable {i : Instr} {s : State}

theorem EndsInRow.withSource {k : List Byte → Result} (h : ∀ bs, EndsInRow i s (k bs)) :
    EndsInRow i s (withSource s k) := by
  rcases withSource_cases s k with hr | hr | ⟨bs, -, hr⟩
  · exact hr ▸ .error _
  · exact hr ▸ .fault _
  · exact hr ▸ h bs

theorem EndsInRow.withStage {k : Chunk → Result} (h : ∀ c, EndsInRow i s (k c)) :
    EndsInRow i s (withStage s k) := by
  rcases withStage_cases s k with ⟨-, hr⟩ | ⟨c, -, hr⟩
  · exact hr ▸ .error _
  · exact hr ▸ h c

theorem EndsInRow.emitBytes (hi : commandWrites i = [.dst, .resLen]) (out : List Byte) :
    EndsInRow i s (emitBytes s out) := by
  rcases emitBytes_cases s out with ⟨-, hr⟩ | ⟨-, hr⟩
  · exact hr ▸ .error _
  · refine hr ▸ .success ⟨?_, rfl, rfl, rfl, rfl, rfl, rfl, rfl⟩
    intro c
    cases c <;> simp [hi, Component.same]

theorem EndsInRow.stageChunk {u : State} {k : Chunk} (h : EndsInRow i s (succeed (u.loadStg k k.len))) :
    EndsInRow i s (stageChunk s u k) := by
  rcases stageChunk_cases s u k with ⟨-, hr⟩ | ⟨-, hr⟩
  · exact hr ▸ .error _
  · exact hr ▸ h

/-- A check of the command fails with an error, or the rest of the command goes on. -/
theorem EndsInRow.unless {p : Prop} [Decidable p] {e : CmdError} {r : Result} (h : EndsInRow i s r)
    (hne : e.code ≠ .none := by nofun) : EndsInRow i s (if p then raise e s else r) := by
  split
  · exact .error e hne
  · exact h

end

/-- Every command ends in one of these ways. -/
theorem exec_endsInRow (i : Instr) (s : State) : EndsInRow i s (exec i s) := by
  cases i with
  | nop => exact .success
  | softReset => exact .success
  | crcInit => exact .success
  | crcByte => exact .success
  | crcBuf => exact .withSource fun _ => .success
  | typeFromStr => exact .withSource fun _ => .unless (.unless .success)
  | chunkNew => exact .withSource fun _ => .unless .success
  | chunkParse =>
    refine .withSource fun f => ?_
    cases hf : parseFrame s.params f with
    | ok k => exact .success
    | error e =>
      rcases parseFrame_error hf with rfl | rfl | ⟨a, b, rfl⟩
      · exact .error _
      · exact .error _
      · exact .error _
  | chunkEmit => exact .withStage fun _ => .emitBytes rfl _
  | chunkDataOut => exact .withStage fun _ => .emitBytes rfl _
  | contClear => exact .success
  | contParse =>
    refine .withSource fun stream => ?_
    cases hw : walk s.params stream with
    | ok ks => exact .success
    | error e =>
      rcases walk_error hw with rfl | rfl | rfl | ⟨a, b, rfl⟩
      · exact .error _
      · exact .error _
      · exact .error _
      · exact .error _
  | contAppend => exact .withStage fun _ => .unless (.unless .success)
  | contRemove =>
    show EndsInRow _ s (execContRemove s)
    unfold execContRemove
    split
    · exact .error _
    · split
      · exact .error _
      · exact .stageChunk .success
  | contFind =>
    show EndsInRow _ s (execContFind s)
    unfold execContFind
    split
    · exact .success
    · exact .success
  | contGet =>
    show EndsInRow _ s (execContGet s)
    unfold execContGet
    split
    · exact .error _
    · exact .stageChunk .success
  | contEmit => exact .emitBytes rfl _

/-- A command that succeeds has written only its row. -/
theorem exec_writesOnlyRow {i : Instr} {s t : State} (h : exec i s = .next t)
    (hok : t.errcode = .none) : WritesOnlyRow i s t := by
  have hends := exec_endsInRow i s
  rw [h] at hends
  cases hends with
  | error e hne => exact absurd hok hne
  | success hrow => exact hrow

/-- The emitting commands are those whose row names DST. -/
theorem dst_mem_commandWrites {i : Instr} :
    .dst ∈ commandWrites i ↔ i ∈ [.chunkEmit, .chunkDataOut, .contEmit] := by
  cases i <;> decide

/-- A command that emits bytes of STG raises an error, or writes them to DST (R57). -/
theorem withStage_emitBytes (s : State) (bytes : Chunk → List Byte) :
    (∃ e, withStage s (fun k => emitBytes s (bytes k)) = raise e s)
    ∨ ∃ out, withStage s (fun k => emitBytes s (bytes k)) = emitBytes s out := by
  rcases withStage_cases s (fun k => emitBytes s (bytes k)) with ⟨-, hr⟩ | ⟨k, -, hr⟩
  · exact .inl ⟨_, hr⟩
  · exact .inr ⟨_, hr⟩

/-- An emitting command raises an error, or writes bytes to DST (R57). -/
theorem exec_of_emitting {i : Instr} (hi : i ∈ [.chunkEmit, .chunkDataOut, .contEmit]) (s : State) :
    (∃ e, exec i s = raise e s) ∨ ∃ out, exec i s = emitBytes s out := by
  simp only [List.mem_cons, List.not_mem_nil, or_false] at hi
  rcases hi with rfl | rfl | rfl
  · exact withStage_emitBytes s frame
  · exact withStage_emitBytes s Chunk.data
  · exact .inr ⟨_, rfl⟩

/-- A DST write that is answered leaves the cells outside its range as they were; RES_LEN is its exact length. -/
theorem read_dst_of_emitBytes {s t : State} {out : List Byte} (h : emitBytes s out = .next t) {x : Nat}
    (hx : x < s.dstAddr.toNat ∨ s.dstAddr.toNat + t.resLen.toNat ≤ x) :
    t.dst.read x = s.dst.read x := by
  rcases emitBytes_cases s out with ⟨-, hr⟩ | ⟨hfit, hr⟩
  · obtain rfl := raise_eq_next.1 (hr.symm.trans h)
    rfl
  · obtain rfl := succeed_eq_next.1 (hr.symm.trans h)
    have hlen : (BitVec.ofNat 32 out.length).toNat = out.length := by
      have hsize := s.params.dstSize.isLt
      rw [State.dstFits] at hfit
      exact Nat.mod_eq_of_lt (by omega)
    exact Memory.read_writeRange_outside s.dst (hlen ▸ hx)

/-- A command that fails keeps DST. -/
theorem exec_failed_dst {i : Instr} {s t : State} (h : exec i s = .next t) (hne : t.errcode ≠ .none) :
    t.dst = s.dst := by
  obtain ⟨heq, -⟩ := errorLeavesEverythingElse i s t h hne
  rw [heq]

/-- Settles O40: a failing command keeps DST, one whose row does not name DST keeps it too, and an emitting one writes
RES_LEN cells from DST_ADDR on. -/
theorem destinationOutsideRangeKept : Obligations.DestinationOutsideRangeKept := by
  intro i s t h
  refine ⟨fun hcase => ?_, fun x hx hi _ => ?_⟩
  · by_cases hok : t.errcode = .none
    · have hrow : .dst ∉ commandWrites i := fun hm =>
        hcase.elim (· (dst_mem_commandWrites.1 hm)) (· hok)
      obtain ⟨hsame, -⟩ := exec_writesOnlyRow h hok
      exact (hsame .dst hrow).symm
    · exact exec_failed_dst h hok
  · rcases exec_of_emitting hi s with ⟨e, hr⟩ | ⟨out, hr⟩
    · obtain rfl := raise_eq_next.1 (hr.symm.trans h)
      rw [raise_frame]
    · exact read_dst_of_emitBytes (hr.symm.trans h) hx

end Sys2Proof.Machine
end

section
/-! PROOFS. Command words and host scripts (30_encoding.md): which word selects which command (R70, R75, R76), what a
command writes on success (R74), the branches of the host script (R78). -/

namespace Sys2Proof.Machine

/-! ### The opcode map and the decoder (R70, R75) -/

/-- A byte that the opcode map gives a command is that command's opcode. -/
theorem eq_opcode_of_commandOfOpcode {op : Byte} {i : Instr} (h : commandOfOpcode op = some i) : op = i.opcode := by
  unfold commandOfOpcode at h
  split at h
  case h_18 => exact nomatch h
  all_goals
    rename_i hop
    obtain rfl := Option.some.inj h
    exact BitVec.eq_of_toNat_eq hop

/-- The opcode map takes exactly the opcode of a command to it. -/
theorem commandOfOpcode_eq_some_iff {op : Byte} {i : Instr} : commandOfOpcode op = some i ↔ op = i.opcode := by
  refine ⟨eq_opcode_of_commandOfOpcode, ?_⟩
  rintro rfl
  cases i <;> rfl

/-- A word decodes to a command exactly if RSVD is zero and OP is the command's opcode. -/
theorem decode_eq_command_iff {w : Word} {i : Instr} :
    decode w = .command i ↔ rsvdField w = 0 ∧ opField w = i.opcode := by
  rw [← commandOfOpcode_eq_some_iff]
  unfold decode
  by_cases hrsvd : rsvdField w = 0
  · cases commandOfOpcode (opField w) <;> simp [hrsvd]
  · rw [if_pos hrsvd]
    exact iff_of_false nofun fun h => hrsvd h.1

/-- A word is ILLEGAL exactly if it decodes to no command. -/
theorem decode_illegal_iff {w : Word} : (∃ why, decode w = .illegal why) ↔ ∀ i, decode w ≠ .command i := by
  cases decode w <;> simp

/-- A word is its field RSVD followed by its field OP. -/
theorem rsvdField_append_opField (w : Word) : rsvdField w ++ opField w = w :=
  (BitVec.extractLsb'_append_extractLsb'_eq_extractLsb' rfl).trans BitVec.extractLsb'_eq_self

/-- The encoding of a command decodes to it. -/
theorem decode_encode (i : Instr) : decode (encode i) = .command i := by
  cases i <;> decide

/-- The one word that decodes to a command is its encoding: its two fields are determined. -/
theorem decode_eq_command_iff_eq_encode {w : Word} {i : Instr} : decode w = .command i ↔ w = encode i := by
  refine ⟨fun h => ?_, fun h => h ▸ decode_encode i⟩
  obtain ⟨hrsvd, hop⟩ := decode_eq_command_iff.1 h
  obtain ⟨hrsvd', hop'⟩ := decode_eq_command_iff.1 (decode_encode i)
  rw [← rsvdField_append_opField w, ← rsvdField_append_opField (encode i), hrsvd, hop, hrsvd', hop']

/-- Settles O2: the decoder goes by the two fields (`decode_eq_command_iff`), and these make up the word. -/
theorem wordSelectsCommandByItsFields : Obligations.WordSelectsCommandByItsFields := by
  refine fun w => ⟨fun i => decode_eq_command_iff, fun i => decode_eq_command_iff_eq_encode, ?_⟩
  simp only [decode_illegal_iff, ne_eq, decode_eq_command_iff_eq_encode]

/-- Settles O1: the words of R75 are the encodings of the commands; the others are evaluated. -/
theorem tableWordsDecode : Obligations.TableWordsDecode :=
  ⟨decode_encode .nop, decode_encode .softReset, decode_encode .crcInit, decode_encode .crcByte,
    decode_encode .crcBuf, decode_encode .typeFromStr, decode_encode .chunkNew, decode_encode .chunkParse,
    decode_encode .chunkEmit, decode_encode .chunkDataOut, decode_encode .contClear, decode_encode .contParse,
    decode_encode .contAppend, decode_encode .contRemove, decode_encode .contFind, decode_encode .contGet,
    decode_encode .contEmit, by decide, by decide, by decide, by decide, by decide⟩

/-! ### The row of a command (R74) -/

/-- Settles O37: a command that succeeds ends by its pending writes, which are those of its row (`exec_endsInRow`). -/
theorem successWritesOnlyItsRow : Obligations.SuccessWritesOnlyItsRow :=
  fun _ _ _ => exec_writesOnlyRow

/-! ### The branches of the host script (R78) -/

/-- The host's turn at a BZ. -/
theorem hostTurn_bz {s : State} {mask : Word} {target : Nat}
    (h : s.host.prog[s.host.pos]? = some (.bz mask target)) :
    hostTurn s = .next (s.hostGoto (if s.host.v &&& mask = 0 then target else s.host.pos + 1)) := by
  rw [hostTurn, h]

/-- The host's turn at a BNZ. -/
theorem hostTurn_bnz {s : State} {mask : Word} {target : Nat}
    (h : s.host.prog[s.host.pos]? = some (.bnz mask target)) :
    hostTurn s = .next (s.hostGoto (if s.host.v &&& mask = 0 then s.host.pos + 1 else target)) := by
  rw [hostTurn, h]

/-- Settles O14: the step is the host's turn, which goes where the branch says. -/
theorem hostBranchesFollowValue : Obligations.HostBranchesFollowValue := by
  intro s mask target hmoves
  refine ⟨fun hop => ?_, fun hop => ?_⟩
  · rw [step_of_hostMoves hmoves, hostTurn_bz (s := s.hostTurnTaken) hop, State.hostTurnTaken_host]
    exact ⟨fun hzero => by rw [if_pos hzero]; rfl, fun hne => by rw [if_neg hne]; rfl⟩
  · rw [step_of_hostMoves hmoves, hostTurn_bnz (s := s.hostTurnTaken) hop, State.hostTurnTaken_host]
    exact ⟨fun hne => by rw [if_neg hne]; rfl, fun hzero => by rw [if_pos hzero]; rfl⟩

end Sys2Proof.Machine
end

section
/-! PROOFS. The CRC engine (40_crc.md): `crc_step` as eight linear, injective steps, its table form (R84), the streaming
and the single-bit law (R86), the three commands (R88 to R90). -/

namespace Sys2Proof.Machine

/-! ### One repetition of `crc_step` (R82) -/

/-- A repetition shifts right by one bit and adds the polynomial when the bit shifted out is set. -/
theorem getLsbD_crcBit (c : Word) (i : Nat) :
    (crcBit c).getLsbD i = (c.getLsbD (1 + i) ^^ (c.getLsbD 0 && crcPoly.getLsbD i)) := by
  unfold crcBit
  cases hlow : c.getLsbD 0 with
  | true => simp [BitVec.getLsbD_ushiftRight]
  | false => simp [BitVec.getLsbD_ushiftRight]

theorem crcBit_xor (c d : Word) : crcBit (c ^^^ d) = crcBit c ^^^ crcBit d := by
  refine BitVec.eq_of_getLsbD_eq fun i _ => ?_
  simp only [getLsbD_crcBit, BitVec.getLsbD_xor, Bool.and_xor_distrib_right, Bool.xor_assoc, Bool.xor_left_comm]

/-- Bit 31 of the polynomial is set, so bit 31 of the result is the bit shifted out. -/
theorem getLsbD_crcBit_top (c : Word) : (crcBit c).getLsbD 31 = c.getLsbD 0 := by
  have hpoly : crcPoly.getLsbD 31 = true := by decide
  rw [getLsbD_crcBit, hpoly, BitVec.getLsbD_of_ge c (1 + 31) (by decide), Bool.and_true, Bool.false_xor]

/-- The bit shifted out is known from the top bit of the result, the others from the rest. -/
theorem crcBit_injective : Function.Injective crcBit := by
  intro c d h
  have hlow : c.getLsbD 0 = d.getLsbD 0 := by
    rw [← getLsbD_crcBit_top, h, getLsbD_crcBit_top]
  refine BitVec.eq_of_getLsbD_eq fun i _ => ?_
  cases i with
  | zero => exact hlow
  | succ i =>
    have hi : (crcBit c).getLsbD i = (crcBit d).getLsbD i := h ▸ rfl
    rwa [getLsbD_crcBit, getLsbD_crcBit, hlow, Bool.xor_left_inj, Nat.add_comm] at hi

/-! ### Several repetitions -/

theorem crcBit_iterate_xor (n : Nat) (c d : Word) :
    crcBit^[n] (c ^^^ d) = crcBit^[n] c ^^^ crcBit^[n] d := by
  induction n generalizing c d with
  | zero => rfl
  | succ n ih => rw [Function.iterate_succ_apply, crcBit_xor, ih]; rfl

/-- As long as the bits shifted out are clear, the polynomial does not enter. -/
theorem crcBit_iterate_of_low_clear {n : Nat} {c : Word} (h : ∀ i, i < n → c.getLsbD i = false) :
    crcBit^[n] c = c >>> n := by
  induction n generalizing c with
  | zero => simp
  | succ n ih =>
    have hstep : crcBit c = c >>> 1 := by simp only [crcBit, h 0 n.succ_pos, Bool.false_eq_true, if_false]
    have hrest : ∀ i, i < n → (c >>> 1).getLsbD i = false := fun i hi => by
      rw [BitVec.getLsbD_ushiftRight, h _ (by omega)]
    rw [Function.iterate_succ_apply, hstep, ih hrest, ← BitVec.shiftRight_add, Nat.add_comm]

/-! ### `crc_step` and its table form (R82, R84) -/

theorem crcStep_eq_iterate (c : Word) (b : Byte) : crcStep c b = crcBit^[8] (c ^^^ b.setWidth 32) := rfl

theorem crcTable_eq_iterate (i : Byte) : crcTable i = crcBit^[8] (i.setWidth 32) :=
  congrArg crcBit^[8] BitVec.zero_xor

/-- The byte fed does not reach the bits above 7. -/
theorem xor_byte_shiftRight_eight (c : Word) (b : Byte) : (c ^^^ b.setWidth 32) >>> 8 = c >>> 8 := by
  refine BitVec.eq_of_getLsbD_eq fun i _ => ?_
  simp only [BitVec.getLsbD_ushiftRight, BitVec.getLsbD_xor, BitVec.getLsbD_setWidth,
    BitVec.getLsbD_of_ge b (8 + i) (by omega), Bool.and_false, Bool.xor_false]

/-- Eight repetitions take the low byte to its table entry, and the other bits, of which none is shifted out, to their
places in `w >>> 8` (R84). -/
theorem crcBit_iterate_eight (w : Word) : crcBit^[8] w = crcTable (w.setWidth 8) ^^^ w >>> 8 := by
  have hclear : ∀ i, i < 8 → (w ^^^ (w.setWidth 8).setWidth 32).getLsbD i = false := fun i hi => by
    simp [hi, Nat.lt_trans hi (by decide : 8 < 32)]
  calc crcBit^[8] w
      = crcBit^[8] ((w.setWidth 8).setWidth 32 ^^^ (w ^^^ (w.setWidth 8).setWidth 32)) := by
        rw [BitVec.xor_comm w, ← BitVec.xor_assoc, BitVec.xor_self, BitVec.zero_xor]
    _ = crcTable (w.setWidth 8) ^^^ (w ^^^ (w.setWidth 8).setWidth 32) >>> 8 := by
        rw [crcBit_iterate_xor, crcBit_iterate_of_low_clear hclear, crcTable_eq_iterate]
    _ = crcTable (w.setWidth 8) ^^^ w >>> 8 := by rw [xor_byte_shiftRight_eight]

theorem crcStep_eq_crcStepTable (c : Word) (b : Byte) : crcStep c b = crcStepTable c b := by
  rw [crcStep_eq_iterate, crcBit_iterate_eight, xor_byte_shiftRight_eight, crcStepTable]

/-- Settles O52: the table form for every word and byte (`crcStep_eq_crcStepTable`); the entries are evaluated. -/
theorem crcTableFormAgrees : Obligations.CrcTableFormAgrees := by
  refine ⟨fun c b => ⟨?_, crcStep_eq_crcStepTable c b⟩, by decide, by decide, by decide, by decide, by decide,
    by decide⟩
  rw [← BitVec.setWidth_eq_extractLsb' (by decide)]
  exact crcStep_eq_crcStepTable c b

/-! ### The fold over a byte sequence (R83, R86) -/

theorem crcStep_injective_word (b : Byte) : Function.Injective (crcStep · b) := fun _ _ h =>
  (BitVec.xor_left_inj _).1 (crcBit_injective.iterate 8 h)

theorem crcStep_injective_byte (c : Word) : Function.Injective (crcStep c) := by
  intro a b h
  have hext : a.setWidth 32 = b.setWidth 32 := (BitVec.xor_right_inj _).1 (crcBit_injective.iterate 8 h)
  have hback : (a.setWidth 32).setWidth 8 = (b.setWidth 32).setWidth 8 := congrArg (BitVec.setWidth 8) hext
  simpa using hback

/-- The streaming law (R86, law 1). -/
theorem crcFold_append (c : Word) (x y : List Byte) : crcFold c (x ++ y) = crcFold (crcFold c x) y :=
  List.foldl_append

/-- Different words stay different through the same bytes. -/
theorem crcFold_injective (s : List Byte) : Function.Injective (crcFold · s) := by
  induction s with
  | nil => exact Function.injective_id
  | cons b s ih => exact ih.comp (crcStep_injective_word b)

/-- Sequences that differ in one byte differ in their crc32. -/
theorem crc32_append_cons_inj {pre post : List Byte} {a b : Byte}
    (h : crc32 (pre ++ a :: post) = crc32 (pre ++ b :: post)) : a = b := by
  have hfold := (BitVec.xor_left_inj _).1 h
  rw [crcFold_append, crcFold_append] at hfold
  exact crcStep_injective_byte _ (crcFold_injective post hfold)

/-- Settles O54: the byte with the bit flipped is another byte (`crc32_append_cons_inj`). -/
theorem crcDetectsEverySingleBitFlip : Obligations.CrcDetectsEverySingleBitFlip := by
  intro pre post b i hi heq
  have hsame := congrArg (BitVec.getLsbD · i) (crc32_append_cons_inj heq)
  simp [hi] at hsame

/-! ### The commands of the engine (R88 to R90) -/

/-- CRC_BUF over a range that holds `bs`. -/
theorem exec_crcBuf_of_srcHolds {s : State} {bs : List Byte} (h : s.srcHolds bs) :
    exec .crcBuf s = succeed { s with crcState := crcFold s.crcState bs } :=
  withSource_of_srcHolds h _

/-- Settles O23: the three ends of a read of the SRC range. -/
theorem crcBufFeedsRange : Obligations.CrcBufFeedsRange := by
  refine ⟨decode_encode .crcBuf, fun s => ⟨fun bs h => exec_crcBuf_of_srcHolds h,
    fun h => withSource_of_bounds h _, ?_⟩⟩
  rintro ⟨hfit, j, hj, hnone⟩
  exact withSource_of_unwritten hfit hj hnone _

/-- Settles O53: each command feeds its own range, and the fold streams (`crcFold_append`). -/
theorem crcBufStreams : Obligations.CrcBufStreams := by
  intro s t u x y a n hx ht hy hu hxy
  obtain rfl := succeed_eq_next.1 ((exec_crcBuf_of_srcHolds hx).symm.trans ht)
  refine ⟨_, _, exec_crcBuf_of_srcHolds hy, exec_crcBuf_of_srcHolds hxy, ?_⟩
  simp only [State.complete_crcState, hu, crcFold_append]

/-- Settles O21: the state after CRC_INIT is a fixed point of it, and `crc32` of no bytes is 0. -/
theorem crcInitSetsEngine : Obligations.CrcInitSetsEngine :=
  ⟨decode_encode .crcInit, fun _ => ⟨_, rfl, rfl, rfl, BitVec.xor_self⟩⟩

/-- Settles O22: the rule's two values are evaluated. -/
theorem crcByteFeedsOneByte : Obligations.CrcByteFeedsOneByte :=
  ⟨decode_encode .crcByte, by decide, by decide, fun _ => rfl⟩

end Sys2Proof.Machine
end

section
/-! PROOFS. Type tags (41_chunk_type.md): the letters and flags of a tag (R92 to R98), TYPE_FROM_STR (R99), and which
accesses and commands change TYPE (R91), CONT, CRC_STATE and the diagnostic registers. -/

namespace Sys2Proof.Machine

/-! ### The letters and flags of a tag (R92 to R98) -/

/-- `alpha` tests for a letter. -/
theorem alpha_eq_true_iff (b : Byte) : alpha b = true ↔ isLetter b := by
  simp [alpha, isLetter, BitVec.le_def]

/-- `alpha4` tests every byte of a tag for a letter. -/
theorem Tag.alpha4_eq_true_iff (t : Tag) : t.alpha4 = true ↔ ∀ b ∈ t.bytes, isLetter b := by
  simp [Tag.alpha4, Tag.bytes, alpha_eq_true_iff, and_assoc]

/-- The bytes of the tag a register holds (R29). -/
theorem Tag.bytes_ofWord (w : Word) : (Tag.ofWord w).bytes = be32bytes w := rfl

/-- The mask 0x20 isolates bit 5 of a byte. -/
theorem and_mask_eq_zero (b : Byte) : (b &&& 0x20 == 0) = !b.getLsbD 5 := by
  show (b &&& BitVec.twoPow 8 5 == 0) = !b.getLsbD 5
  rw [BitVec.and_twoPow]
  cases b.getLsbD 5 <;> rfl

-- The four flags (R93 to R96), read from bit 5 of their byte of the register.

theorem Tag.isCritical_ofWord (w : Word) : (Tag.ofWord w).isCritical = !w.getLsbD 29 :=
  (and_mask_eq_zero _).trans (by simp [Tag.ofWord, Tag.ofBytes, be32bytes])

theorem Tag.isPublic_ofWord (w : Word) : (Tag.ofWord w).isPublic = !w.getLsbD 21 :=
  (and_mask_eq_zero _).trans (by simp [Tag.ofWord, Tag.ofBytes, be32bytes])

theorem Tag.isReservedBitValid_ofWord (w : Word) : (Tag.ofWord w).isReservedBitValid = !w.getLsbD 13 :=
  (and_mask_eq_zero _).trans (by simp [Tag.ofWord, Tag.ofBytes, be32bytes])

theorem Tag.isSafeToCopy_ofWord (w : Word) : (Tag.ofWord w).isSafeToCopy = w.getLsbD 5 := by
  rw [Tag.isSafeToCopy, bne, and_mask_eq_zero, Bool.not_not]
  simp [Tag.ofWord, Tag.ofBytes, be32bytes]

/-- Each flag of TFLAGS stands at its own bit (R98). -/
theorem getLsbD_tflags (t : Tag) (i : Nat) :
    (tflags t).getLsbD i =
      if i = 0 then t.alpha4 else if i = 1 then t.isValid else if i = 2 then t.isCritical
      else if i = 3 then t.isPublic else if i = 4 then t.isReservedBitValid
      else if i = 5 then t.isSafeToCopy else false := by
  simp only [tflags, BitVec.getLsbD_or, getLsbD_flagBit, Nat.reduceLT]
  by_cases hi : i < 6
  · interval_cases i <;> simp
  · simp [show i ≠ 0 by omega, show i ≠ 1 by omega, show i ≠ 2 by omega, show i ≠ 3 by omega,
      show i ≠ 4 by omega, show i ≠ 5 by omega]

/-- No command reports INVALID_ARGUMENT (R98). -/
theorem invalidArgument_not_mem_commandRaises (i : Instr) : .invalidArgument ∉ commandRaises i := by
  cases i <;> decide

/-- Settles O17: each flag stands at its own bit (`getLsbD_tflags`) and reads its bits of TYPE; a command reports one
of its own errors (`Ends.reports`), and 0x08 is none. -/
theorem typeFlagsOfTypeRegister : Obligations.TypeFlagsOfTypeRegister := by
  refine ⟨fun i s t h hc => ?_, fun s => ?_⟩
  · rcases (h ▸ exec_ends i s).reports with hok | herr
    · exact nomatch hc.symm.trans hok
    · exact invalidArgument_not_mem_commandRaises i (hc ▸ herr)
  · have hletters : (Tag.ofWord s.typeReg).alpha4 = true ↔ ∀ b ∈ be32bytes s.typeReg, isLetter b :=
      Tag.alpha4_eq_true_iff _
    have hvalid : (Tag.ofWord s.typeReg).isValid = true
        ↔ (∀ b ∈ be32bytes s.typeReg, isLetter b) ∧ s.typeReg.getLsbD 13 = false := by
      rw [Tag.isValid, Bool.and_eq_true, hletters, Tag.isReservedBitValid_ofWord, Bool.not_eq_true']
    simp only [regRead, getLsbD_tflags]
    refine ⟨hletters, hvalid, Tag.isCritical_ofWord _, Tag.isPublic_ofWord _, Tag.isReservedBitValid_ofWord _,
      Tag.isSafeToCopy_ofWord _, fun i hi => ?_⟩
    simp [show i ≠ 0 by omega, show i ≠ 1 by omega, show i ≠ 2 by omega, show i ≠ 3 by omega,
      show i ≠ 4 by omega, show i ≠ 5 by omega]

/-! ### TYPE_FROM_STR (R99) -/

/-- The bytes of a tag, read as a word, pack it (R29). -/
@[simp] theorem be32_bytes (t : Tag) : be32 t.bytes = t.toWord := rfl

/-- TYPE_FROM_STR over a range that holds the bytes of a tag of letters. -/
theorem exec_typeFromStr_of_letters {s : State} {t : Tag} (h : s.srcHolds t.bytes)
    (hl : ∀ b ∈ t.bytes, isLetter b) : exec .typeFromStr s = succeed { s with typeReg := t.toWord } := by
  have halpha : t.alpha4 = true := t.alpha4_eq_true_iff.2 hl
  refine (withSource_of_srcHolds h _).trans ?_
  simp [halpha]

/-- TYPE_FROM_STR over a range that holds any other string. -/
theorem exec_typeFromStr_of_not_letters {s : State} {bs : List Byte} (h : s.srcHolds bs)
    (hbad : bs.length ≠ 4 ∨ ∃ b ∈ bs, ¬ isLetter b) :
    exec .typeFromStr s = raise (.plain .invalidFormat) s := by
  refine (withSource_of_srcHolds h _).trans ?_
  by_cases hlen : bs.length = 4
  · obtain ⟨b, hb, hnot⟩ := hbad.resolve_left (· hlen)
    have halpha : (Tag.ofBytes bs).alpha4 ≠ true := fun ha =>
      hnot ((Tag.alpha4_eq_true_iff _).1 ha b ((Tag.bytes_ofBytes hlen).symm ▸ hb))
    simp [hlen, halpha]
  · exact if_pos hlen

/-- Settles O24: the three ends of a read of the SRC range, the string read being four letters or not. -/
theorem typeFromStrLoadsFourLetters : Obligations.TypeFromStrLoadsFourLetters := by
  refine ⟨decode_encode .typeFromStr, fun s => ⟨fun t h hl => exec_typeFromStr_of_letters h hl,
    fun bs h hbad => exec_typeFromStr_of_not_letters h hbad, fun h => withSource_of_bounds h _, ?_⟩⟩
  rintro ⟨hfit, j, hj, hnone⟩
  exact withSource_of_unwritten hfit hj hnone _

/-! ### The writers of TYPE, CONT, CRC_STATE and the diagnostics (R33, R36, R43, R91) -/

/-- What a command with a next state changes is in its row, or is a diagnostic register and the command ends in
CHECKSUM_MISMATCH (R74, R36). -/
theorem exec_changes {i : Instr} {s t : State} {c : Component} (h : exec i s = .next t)
    (hne : ¬ Component.same s t c) :
    c ∈ commandWrites i ∨ (c ∈ [.errStored, .errComputed] ∧ t.errcode = .checksumMismatch) := by
  by_cases hok : t.errcode = .none
  · obtain ⟨hrow, -⟩ := exec_writesOnlyRow h hok
    exact .inl (by_contra fun hc => hne (hrow c hc))
  · obtain ⟨e, rfl, hinfo⟩ := exec_failed h hok
    right
    rcases hinfo with hinfo | hcode
    · rw [hinfo] at hne
      exact absurd (by cases c <;> rfl) hne
    · refine ⟨by_contra fun hc => hne ?_, hcode⟩
      rw [raise_frame]
      cases c with
      | errStored | errComputed => exact absurd (by decide) hc
      | _ => rfl

/-- The components that a host access can write: the seven RW registers (R23). -/
def hostWrites : List Component := [.cmd, .argAddr, .argLen, .dstAddr, .type, .index, .crcIn]

/-- The host's turn keeps every other component (R52). -/
theorem HostEffect.same {s t : State} {c : Component} (h : HostEffect s t) (hc : c ∉ hostWrites) :
    Component.same s t c := by
  cases h with
  | nothing g | cell g i b hi => cases c <;> rfl
  | register g r w s' hw =>
    have hkept : Component.same s s' c := by
      rcases regWrite_cases hw with hs' | hs'
      all_goals
        rw [hs']
        cases c with
        | cmd | argAddr | argLen | dstAddr | type | index | crcIn => exact absurd (by decide) hc
        | _ => rfl
    cases c <;> exact hkept

/-- What a step without a reset changes is in the row of the command that the sequencer runs, or is a diagnostic
register at CHECKSUM_MISMATCH, or is a register that the host writes. -/
theorem step_changes {s t : State} {c : Component} (hlow : s.resetLow) (h : step s = .next t)
    (hne : ¬ Component.same s t c) :
    (∃ i, s.sequencerNext ∧ decode s.latch = .command i ∧ c ∈ commandWrites i)
    ∨ (c ∈ [.errStored, .errComputed] ∧ s.sequencerNext ∧ t.errcode = .checksumMismatch)
    ∨ (c ∈ hostWrites ∧ s.hostMoves) := by
  cases step_ends h with
  | reset hr _ => exact absurd hlow hr
  | command hq hi ht =>
    have hne' : ¬ Component.same s.afterLevel t c := fun hc => hne (by cases c <;> exact hc)
    rcases exec_changes ht hne' with hrow | ⟨hdiag, hcode⟩
    · exact .inl ⟨_, hq, hi, hrow⟩
    · exact .inr (.inl ⟨hdiag, hq, hcode⟩)
  | illegal _ => exact absurd (by cases c <;> rfl) hne
  | host hm ht =>
    have hhost : c ∈ hostWrites := by_contra fun hc => hne (by cases c <;> exact ht.same hc)
    exact .inr (.inr ⟨hhost, hm⟩)

/-- The rows that name TYPE (R74). -/
theorem type_mem_commandWrites {i : Instr} : .type ∈ commandWrites i → i ∈ [.typeFromStr, .softReset] := by
  cases i <;> decide

/-- The rows that name CONT. -/
theorem cont_mem_commandWrites {i : Instr} :
    .cont ∈ commandWrites i → i ∈ [.contClear, .contParse, .contAppend, .contRemove, .softReset] := by
  cases i <;> decide

/-- The rows that name CRC_STATE. -/
theorem crcState_mem_commandWrites {i : Instr} :
    .crcState ∈ commandWrites i → i ∈ [.crcInit, .crcByte, .crcBuf, .softReset] := by
  cases i <;> decide

/-- The one row that names a diagnostic register. -/
theorem diagnostic_mem_commandWrites {i : Instr} {c : Component} (hc : c = .errStored ∨ c = .errComputed) :
    c ∈ commandWrites i → i = .softReset := by
  rcases hc with rfl | rfl
  · cases i <;> decide
  · cases i <;> decide

/-- A component that is no diagnostic register and that the host cannot write changes only by a command whose row
names it. -/
theorem step_changes_by_command {s t : State} {c : Component} {writers : List Instr}
    (hwriters : ∀ {i}, c ∈ commandWrites i → i ∈ writers) (hlow : s.resetLow) (h : step s = .next t)
    (hne : ¬ Component.same s t c) (hnodiag : c ∉ [.errStored, .errComputed] := by decide)
    (hnohost : c ∉ hostWrites := by decide) :
    s.sequencerNext ∧ decode s.latch ∈ writers.map .command := by
  rcases step_changes hlow h hne with ⟨i, hq, hi, hrow⟩ | ⟨hdiag, -⟩ | ⟨hhost, -⟩
  · exact ⟨hq, hi ▸ List.mem_map_of_mem (hwriters hrow)⟩
  · exact absurd hdiag hnodiag
  · exact absurd hhost hnohost

/-- A diagnostic register changes only by CHECKSUM_MISMATCH or SOFT_RESET (R36, R120, R126). -/
theorem step_changes_diagnostic {s t : State} {c : Component} (hc : c = .errStored ∨ c = .errComputed)
    (hlow : s.resetLow) (h : step s = .next t) (hne : ¬ Component.same s t c) :
    s.sequencerNext ∧ (t.errcode = .checksumMismatch ∨ decode s.latch = .command .softReset) := by
  rcases step_changes hlow h hne with ⟨i, hq, hi, hrow⟩ | ⟨-, hq, hcode⟩ | ⟨hhost, -⟩
  · exact ⟨hq, .inr (diagnostic_mem_commandWrites hc hrow ▸ hi)⟩
  · exact ⟨hq, .inl hcode⟩
  · rcases hc with rfl | rfl
    · exact absurd hhost (by decide)
    · exact absurd hhost (by decide)

/-- A register write that changes TYPE is one to TYPE. -/
theorem eq_type_of_regWrite {s s' : State} {r : RegName} {w : Word} (h : regWrite s r w = some s')
    (hne : s'.typeReg ≠ s.typeReg) : r = .type ∧ s'.typeReg = w := by
  cases r with
  | type => exact ⟨rfl, Option.some.inj h ▸ rfl⟩
  | cmd | argAddr | argLen | dstAddr | index | crcIn =>
    obtain rfl := Option.some.inj h
    exact absurd rfl hne
  | _ => exact nomatch h

/-- A read that is answered has no side effect (R52). -/
theorem busAccess_read_state {s s' : State} {space : Space} {width : Width} {addr : Nat} {reply : BusReply}
    (h : busAccess s (.read space width addr) = .ok (s', reply)) : s' = s := by
  cases space with
  | reg =>
    simp only [busAccess] at h
    split at h
    · exact nomatch h
    · exact (Prod.mk.inj (Except.ok.inj h)).1.symm
  | src | dst =>
    simp only [busAccess] at h
    split at h
    · exact nomatch h
    · split at h
      · exact nomatch h
      · exact (Prod.mk.inj (Except.ok.inj h)).1.symm

/-- An access that changes TYPE is the write of the new value to it (R91). -/
theorem busAccess_changes_type {s s' : State} {a : Access} {reply : BusReply}
    (h : busAccess s a = .ok (s', reply)) (hne : s'.typeReg ≠ s.typeReg) : a = .regWrite 0x1C s'.typeReg := by
  match a, h with
  | .read _ _ _, h => exact absurd (congrArg State.typeReg (busAccess_read_state h)) hne
  | .write .reg width off w, h =>
    rcases regAccess_cases width off with herr | ⟨r, hok, rfl, rfl⟩
    · simp [busAccess, herr] at h
    · simp only [busAccess, hok] at h
      split at h
      · exact nomatch h
      next hw =>
        obtain ⟨rfl, -⟩ := Prod.mk.inj (Except.ok.inj h)
        obtain ⟨rfl, rfl⟩ := eq_type_of_regWrite hw hne
        rfl
  | .write .src width i w, h =>
    simp only [busAccess] at h
    split at h
    · exact nomatch h
    · obtain ⟨rfl, -⟩ := Prod.mk.inj (Except.ok.inj h)
      exact absurd rfl hne
  | .write .dst _ _ _, h => exact nomatch h

/-- A host's turn that changes TYPE is, with BUSY = 0, the write of the new value to it (R91, R139). -/
theorem hostTurn_changes_type {s t : State} (h : hostTurn s = .next t) (hne : t.typeReg ≠ s.typeReg) :
    s.busy = false ∧ s.host.prog[s.host.pos]? = some (.access (.regWrite 0x1C t.typeReg)) := by
  have hidle : s.busy = false := by
    by_contra hbusy
    obtain ⟨g, rfl⟩ := (hostTurn_effect h).2 (by simpa using hbusy)
    exact hne rfl
  refine ⟨hidle, ?_⟩
  unfold hostTurn at h
  split at h
  case h_5 a hop =>
    rw [guardedAccess, if_neg (by simp [hidle])] at h
    split at h
    · exact nomatch h
    next ha =>
      obtain rfl := Host.Outcome.next.inj h
      rw [hop, busAccess_changes_type ha hne]
  all_goals exact absurd (Host.Outcome.next.inj h ▸ rfl) hne

/-- Settles O45: a command changes what its row names or records CHECKSUM_MISMATCH (`step_changes`), the host of the
four only TYPE, by its write to it (`hostTurn_changes_type`). -/
theorem componentsChangeOnlyByTheirWriters : Obligations.ComponentsChangeOnlyByTheirWriters := by
  intro s t hlow h
  refine ⟨fun hne => ?_,
    fun hne => step_changes_by_command (c := .cont) cont_mem_commandWrites hlow h hne.symm,
    fun hne => step_changes_by_command (c := .crcState) crcState_mem_commandWrites hlow h hne.symm,
    fun hne => ?_⟩
  · rcases step_changes (c := .type) hlow h hne.symm with ⟨i, hq, hi, hrow⟩ | ⟨hdiag, -⟩ | ⟨-, hm⟩
    · exact .inr ⟨hq, hi ▸ List.mem_map_of_mem (type_mem_commandWrites hrow)⟩
    · exact absurd hdiag (by decide)
    · obtain ⟨hidle, hop⟩ := hostTurn_changes_type ((step_of_hostMoves hm).symm.trans h) hne
      exact .inl ⟨hlow, hidle, hop⟩
  · rcases hne with hne | hne
    · exact step_changes_diagnostic (c := .errStored) (.inl rfl) hlow h hne.symm
    · exact step_changes_diagnostic (c := .errComputed) (.inr rfl) hlow h hne.symm

end Sys2Proof.Machine
end

section
/-! PROOFS. The commands on one chunk (42_chunk.md): CHUNK_NEW (R100), the permissive parse (R101), the two commands
that write STG to DST (R104, R105), and the round trips between them (R106). -/

namespace Sys2Proof.Machine

/-! ### CHUNK_NEW (R100) -/

/-- A command whose SRC range holds an unwritten cell is the model fault (R55). -/
theorem withSource_of_srcUnwritten {s : State} (h : s.srcUnwritten) (k : List Byte → Result) :
    withSource s k = .fault .unwrittenSource := by
  obtain ⟨hfit, j, hj, hnone⟩ := h
  exact withSource_of_unwritten hfit hj hnone k

section
variable {s : State} {d : List Byte}

theorem exec_chunkNew_of_fits (h : s.srcHolds d) (hd : d.length ≤ s.params.stgCap.toNat) :
    exec .chunkNew s =
      succeed (s.loadStg ⟨Tag.ofWord s.typeReg, d, chunkCrc (Tag.ofWord s.typeReg) d⟩ s.argLen) :=
  (withSource_of_srcHolds h _).trans (if_neg (Nat.not_lt.2 (h.1 ▸ hd)))

theorem exec_chunkNew_of_too_long (h : s.srcHolds d) (hd : s.params.stgCap.toNat < d.length) :
    exec .chunkNew s = raise (.plain .capacity) s :=
  (withSource_of_srcHolds h _).trans (if_pos (h.1 ▸ hd))

end

/-- Settles O25: the three ends of a read of the SRC range, the data read fitting STG or not. -/
theorem chunkNewStagesRecord : Obligations.ChunkNewStagesRecord :=
  ⟨decode_encode .chunkNew, fun _ => ⟨fun _ h hd => exec_chunkNew_of_fits h hd,
    fun _ h hd => exec_chunkNew_of_too_long h hd, fun h => withSource_of_bounds h _,
    fun h => withSource_of_srcUnwritten h _⟩⟩

/-! ### The permissive parse (R101, R102) -/

section
variable {ty : Tag} {d : List Byte} {stored : Word}

theorem checkedChunk_of_right (h : stored = chunkCrc ty d) : checkedChunk ty d stored = .ok ⟨ty, d, stored⟩ :=
  ((checkedChunk_cases ty d stored).resolve_right (·.1 h)).2

theorem checkedChunk_of_wrong (h : stored ≠ chunkCrc ty d) :
    checkedChunk ty d stored = .error (.mismatch stored (chunkCrc ty d)) :=
  ((checkedChunk_cases ty d stored).resolve_left (h ·.1)).2

end

/-- A slice that starts behind the first four bytes does not see them. -/
theorem slice_be32bytes_append (v : Word) (body : List Byte) {i j : Nat} (hi : 4 ≤ i) :
    slice (be32bytes v ++ body) i j = slice body (i - 4) (j - 4) := by
  obtain ⟨n, rfl⟩ := Nat.exists_eq_add_of_le' hi
  rw [slice, slice, Nat.add_sub_cancel, show j - (n + 4) = j - 4 - n by omega]
  rfl

/-- The declared length is never checked (R101): the parse is the same whatever the first four bytes hold. -/
theorem parseFrame_ignores_declared (p : Params) (v w : Word) (body : List Byte) :
    parseFrame p (be32bytes v ++ body) = parseFrame p (be32bytes w ++ body) := by
  have hlen : (be32bytes v ++ body).length = (be32bytes w ++ body).length := by simp
  by_cases h : (be32bytes w ++ body).length < 12
  · rw [parseFrame, parseFrame, hlen, if_pos h, if_pos h]
  · rw [parseFrame, parseFrame, hlen]
    simp (disch := omega) only [slice_be32bytes_append]

section
variable {p : Params} {k : Chunk} {f : List Byte}

theorem parseFrame_of_short (h : f.length < 12) : parseFrame p f = .error (.plain .truncated) := if_pos h

theorem parseFrame_frame_of_too_long (h : p.stgCap.toNat < k.data.length) :
    parseFrame p (frame k) = .error (.plain .capacity) := by
  rw [parseFrame, frame_length, if_neg (by omega), if_pos (by omega)]

/-- The frame of a record that fits STG is cut into its fields, and the CRC check decides (R101). -/
theorem parseFrame_frame_of_fits (h : k.data.length ≤ p.stgCap.toNat) :
    parseFrame p (frame k) = checkedChunk k.type k.data k.crc := by
  have htype := slice_frame_type k []
  have hdata := slice_frame_data k []
  have hcrc := be32_frame_crc k []
  rw [List.append_nil] at htype hdata hcrc
  rw [parseFrame, frame_length, if_neg (by omega), if_neg (by omega),
    show 12 + k.data.length - 4 = 8 + k.data.length by omega, htype, hdata, hcrc, Tag.ofBytes_bytes]

/-- A slice the parse accepts has 12 bytes, and its record is read from the slice's fields. -/
theorem parseFrame_ok_fields (h : parseFrame p f = .ok k) :
    12 ≤ f.length ∧ k = ⟨Tag.ofBytes (slice f 4 8), slice f 8 (f.length - 4),
      be32 (slice f (f.length - 4) f.length)⟩ := by
  unfold parseFrame at h
  split at h
  · exact nomatch h
  · split at h
    · exact nomatch h
    · refine ⟨Nat.le_of_not_lt ‹_›, ?_⟩
      rcases checkedChunk_cases (Tag.ofBytes (slice f 4 8)) (slice f 8 (f.length - 4))
          (be32 (slice f (f.length - 4) f.length)) with ⟨-, hc⟩ | ⟨-, hc⟩
      · exact (Except.ok.inj (hc.symm.trans h)).symm
      · exact nomatch hc.symm.trans h

/-- A frame whose declared length is right is the frame of the record parsed from it (R106, law 2). -/
theorem frame_of_parseFrame (h : parseFrame p f = .ok k) (hdecl : (be32 f).toNat = f.length - 12) :
    frame k = f := by
  obtain ⟨hlen, rfl⟩ := parseFrame_ok_fields h
  have hf := frame_of_fields (n := f.length - 12) (by omega) hdecl
  rw [show 8 + (f.length - 12) = f.length - 4 by omega, show 12 + (f.length - 12) = f.length by omega,
    List.drop_length, List.append_nil] at hf
  exact hf.symm

end

/-! ### CHUNK_PARSE (R101) -/

section
variable {s : State} {f : List Byte}

theorem exec_chunkParse_of_ok {k : Chunk} (h : s.srcHolds f) (hk : parseFrame s.params f = .ok k) :
    exec .chunkParse s = succeed (s.loadStg k (be32 f)) := by
  refine (withSource_of_srcHolds h _).trans ?_
  rw [hk]

theorem exec_chunkParse_of_error {e : CmdError} (h : s.srcHolds f) (he : parseFrame s.params f = .error e) :
    exec .chunkParse s = raise e s := by
  refine (withSource_of_srcHolds h _).trans ?_
  rw [he]

/-- A CHUNK_PARSE that completes without error has staged the record the parse accepts. -/
theorem exec_chunkParse_succeeds {t : State} (h : s.srcHolds f) (ht : exec .chunkParse s = .next t)
    (hok : t.errcode = .none) :
    ∃ k, parseFrame s.params f = .ok k ∧ t = (s.loadStg k (be32 f)).complete .none := by
  cases hf : parseFrame s.params f with
  | ok k => exact ⟨k, rfl, (succeed_eq_next.1 ((exec_chunkParse_of_ok h hf).symm.trans ht)).symm⟩
  | error e =>
    obtain rfl := raise_eq_next.1 ((exec_chunkParse_of_error h hf).symm.trans ht)
    rcases parseFrame_error hf with rfl | rfl | ⟨_, _, rfl⟩
    · exact nomatch hok
    · exact nomatch hok
    · exact nomatch hok

end

/-- Settles O26: a range with any declared length is parsed as the frame of its other three fields
(`parseFrame_ignores_declared`), which is too long for STG, right or wrong. -/
theorem chunkParseIsPermissive : Obligations.ChunkParseIsPermissive := by
  refine ⟨decode_encode .chunkParse, fun s => ⟨fun decl t d stored h => ?_,
    fun f h hlt => exec_chunkParse_of_error h (parseFrame_of_short hlt), fun h => withSource_of_bounds h _,
    fun h => withSource_of_srcUnwritten h _⟩⟩
  have hparse : parseFrame s.params (be32bytes decl ++ t.bytes ++ d ++ be32bytes stored)
      = parseFrame s.params (frame ⟨t, d, stored⟩) := by
    simp only [frame, List.append_assoc]
    exact parseFrame_ignores_declared _ _ _ _
  refine ⟨fun hd hcrc => ?_, fun hd hcrc => ?_, fun hd => ?_⟩
  · rw [exec_chunkParse_of_ok h (hparse.trans ((parseFrame_frame_of_fits hd).trans (checkedChunk_of_right hcrc))),
      List.append_assoc, List.append_assoc, be32_be32bytes_append]
    rfl
  · exact exec_chunkParse_of_error h
      (hparse.trans ((parseFrame_frame_of_fits hd).trans (checkedChunk_of_wrong hcrc)))
  · exact exec_chunkParse_of_error h (hparse.trans (parseFrame_frame_of_too_long hd))

/-! ### CHUNK_EMIT and CHUNK_DATA_OUT (R104, R105) -/

section
variable {s : State} {k : Chunk}

theorem withStage_of_stg (h : s.stg = some k) (f : Chunk → Result) : withStage s f = f k := by
  rw [withStage, h]

theorem withStage_of_empty (h : s.stg = none) (f : Chunk → Result) :
    withStage s f = raise (.plain .stageEmpty) s := by
  rw [withStage, h]

theorem exec_chunkEmit_of_stg (h : s.stg = some k) : exec .chunkEmit s = emitBytes s (frame k) :=
  withStage_of_stg h _

theorem exec_chunkDataOut_of_stg (h : s.stg = some k) : exec .chunkDataOut s = emitBytes s k.data :=
  withStage_of_stg h _

end

section
variable {s : State} {out : List Byte}

/-- Bytes that fit at DST_ADDR are written there, over what DST held (R57). -/
theorem emitBytes_of_fits (h : s.dstFits out.length) :
    ∃ m, m.holdsOver s.dst s.dstAddr.toNat out
      ∧ emitBytes s out = succeed { s with dst := m, resLen := BitVec.ofNat 32 out.length } :=
  ⟨_, Memory.writeRange_holdsOver s.dst s.dstAddr.toNat out, if_neg (Nat.not_lt.2 h)⟩

theorem emitBytes_of_not_fits (h : ¬ s.dstFits out.length) : emitBytes s out = raise (.plain .bounds) s :=
  if_pos (Nat.lt_of_not_le h)

/-- A DST write that completes without error: RES_LEN is the exact length, and the bytes stand at DST_ADDR. -/
theorem emitBytes_succeeds {t : State} (h : emitBytes s out = .next t) (hok : t.errcode = .none) :
    t.resLen.toNat = out.length ∧ t.dst.holdsOver s.dst s.dstAddr.toNat out := by
  by_cases hfit : s.dstFits out.length
  · obtain ⟨m, hm, hr⟩ := emitBytes_of_fits hfit
    obtain rfl := succeed_eq_next.1 (hr.symm.trans h)
    have hsize := s.params.dstSize.isLt
    rw [State.dstFits] at hfit
    exact ⟨Nat.mod_eq_of_lt (by omega), hm⟩
  · obtain rfl := raise_eq_next.1 ((emitBytes_of_not_fits hfit).symm.trans h)
    exact nomatch hok

end

/-- Settles O27: the frame fits at DST_ADDR or not, or STG is empty. -/
theorem chunkEmitWritesFrame : Obligations.ChunkEmitWritesFrame := by
  refine ⟨decode_encode .chunkEmit, fun s => ⟨fun k hk hfit => ?_, fun k hk hfit => ?_,
    fun h => withStage_of_empty h _, fun ⟨_, _, _, hstg⟩ k hk => (hstg k hk).1⟩⟩
  · rw [exec_chunkEmit_of_stg hk]
    rw [← frame_length] at hfit ⊢
    exact emitBytes_of_fits hfit
  · rw [← frame_length] at hfit
    exact (exec_chunkEmit_of_stg hk).trans (emitBytes_of_not_fits hfit)

/-- Settles O28: the data fit at DST_ADDR or not, or STG is empty. -/
theorem chunkDataOutCopiesData : Obligations.ChunkDataOutCopiesData := by
  refine ⟨decode_encode .chunkDataOut, fun s => ⟨fun k hk hfit => ?_, fun k hk hfit => ?_,
    fun h => withStage_of_empty h _⟩⟩
  · rw [exec_chunkDataOut_of_stg hk]
    exact emitBytes_of_fits hfit
  · exact (exec_chunkDataOut_of_stg hk).trans (emitBytes_of_not_fits hfit)

/-! ### The round trips (R106) -/

/-- Bytes that stand in DST and are copied to the SRC range are what the next command reads. -/
theorem srcHolds_of_copy {u : State} {m m₀ : Memory} {a : Nat} {out : List Byte}
    (hout : m.holdsOver m₀ a out) (hlen : u.argLen.toNat = out.length)
    (hfit : u.argAddr.toNat + u.argLen.toNat ≤ u.params.srcSize.toNat)
    (hcopy : ∀ j, j < u.argLen.toNat → u.src.read (u.argAddr.toNat + j) = m.read (a + j)) : u.srcHolds out :=
  ⟨hlen.symm, hfit, fun j hj => (hcopy j hj).trans (hout.1 j (hlen ▸ hj))⟩

/-- Settles O55: a right record's frame parses to it (law 1), and a frame with a right declared length is the frame of
the record parsed from it (`frame_of_parseFrame`, law 2). -/
theorem chunkFrameRoundTrip : Obligations.ChunkFrameRoundTrip := by
  refine ⟨fun s t u k hinv hk ht hok hparams hlen hfit hcopy => ?_,
    fun s t t' f hsrc hdecl ht hok ht' hok' => ?_⟩
  · obtain ⟨-, -, -, hstg⟩ := hinv
    obtain ⟨hcrc, hcap⟩ := hstg k hk
    obtain ⟨hres, hout⟩ := emitBytes_succeeds ((exec_chunkEmit_of_stg hk).symm.trans ht) hok
    have hsrc : u.srcHolds (frame k) := srcHolds_of_copy hout (hlen ▸ hres) hfit hcopy
    have hparse : parseFrame u.params (frame k) = .ok k := by
      rw [hparams, parseFrame_frame_of_fits hcap, checkedChunk_of_right hcrc]
    have hbe : be32 (frame k) = k.len := by simpa using be32_frame k []
    rw [exec_chunkParse_of_ok hsrc hparse, hbe]
    rfl
  · obtain ⟨k, hparse, rfl⟩ := exec_chunkParse_succeeds hsrc ht hok
    have hemit := exec_chunkEmit_of_stg (s := (s.loadStg k (be32 f)).complete .none) (k := k) rfl
    rw [frame_of_parseFrame hparse hdecl] at hemit
    obtain ⟨hres, hout⟩ := emitBytes_succeeds (hemit.symm.trans ht') hok'
    exact ⟨hres, hout⟩

end Sys2Proof.Machine
end

section
/-! PROOFS. The container commands (43_container.md): the walk of CONT_PARSE (R109, R112), the commands on the records
of CONT (R107, R108, R110, R113 to R116), CONT_EMIT (R117), and the round trips between them (R118). -/

namespace Sys2Proof.Machine

/-! ### What stops the walk (R109) -/

section
variable {p : Params} {n : Nat} {rest : List Byte} {k : Chunk} {acc : List Chunk} {used : Nat}

/-- Bytes that are fewer than a length field, or than the frame they declare, stop the walk. -/
theorem walkLoop_of_truncated (hr : 1 ≤ rest.length)
    (h : rest.length < 4 ∨ rest.length < 12 + (be32 rest).toNat) :
    walkLoop p (n + 1) rest acc used = .error (.plain .truncated) := by
  rw [walkLoop_succ p n (List.length_pos_iff.1 hr)]
  by_cases h4 : rest.length < 4
  · rw [if_pos h4]
  · rw [if_neg h4, if_pos (h.resolve_left h4)]

theorem frame_append_length : (frame k ++ rest).length = 12 + k.data.length + rest.length := by
  rw [List.length_append, frame_length]

theorem frame_append_ne_nil : frame k ++ rest ≠ [] :=
  List.length_pos_iff.1 (by rw [frame_append_length]; omega)

/-- A whole frame that the capacities do not admit stops the walk before its CRC is checked. -/
theorem walkLoop_frame_of_no_room (hl : k.data.length < 2 ^ 32)
    (h : p.maxChunks.toNat < acc.length + 1 ∨ p.storeCap.toNat < used + k.data.length) :
    walkLoop p (n + 1) (frame k ++ rest) acc used = .error (.plain .capacity) := by
  rw [walkLoop_succ p n frame_append_ne_nil, be32_frame, Chunk.len_toNat hl, frame_append_length,
    if_neg (by omega), if_neg (by omega), if_pos h]

/-- A whole frame that the capacities admit and whose CRC is wrong stops the walk. -/
theorem walkLoop_frame_of_wrong_crc (hl : k.data.length < 2 ^ 32) (hc : k.crc ≠ chunkCrc k.type k.data)
    (hm : acc.length + 1 ≤ p.maxChunks.toNat) (hu : used + k.data.length ≤ p.storeCap.toNat) :
    walkLoop p (n + 1) (frame k ++ rest) acc used = .error (.mismatch k.crc (chunkCrc k.type k.data)) := by
  rw [walkLoop_succ p n frame_append_ne_nil, be32_frame, Chunk.len_toNat hl, frame_append_length,
    if_neg (by omega), if_neg (by omega), if_neg (by omega), slice_frame_type, slice_frame_data, be32_frame_crc,
    Tag.ofBytes_bytes, checkedChunk_of_wrong hc]

end

/-- Four fields whose first is the length of the third are the frame of a record (R71). -/
theorem fields_eq_frame {decl : Word} {d : List Byte} (h : d.length = decl.toNat) (t : Tag) (stored : Word) :
    be32bytes decl ++ t.bytes ++ d ++ be32bytes stored = frame ⟨t, d, stored⟩ := by
  have hlen : Chunk.len ⟨t, d, stored⟩ = decl := by simp [Chunk.len, h]
  rw [frame, hlen]

/-- The walk accepts the stream of storable records (R118, law 1). -/
theorem walk_containerStream {p : Params} {ks : List Chunk} (h : storable p ks) :
    walk p (containerStream ks) = .ok ks := by
  simpa [containerStream] using walk_frames h []

/-! ### CONT_PARSE (R112) -/

section
variable {s : State} {stream : List Byte}

theorem exec_contParse_of_ok {ks : List Chunk} (h : s.srcHolds stream) (hw : walk s.params stream = .ok ks) :
    exec .contParse s = succeed { s with cont := ks } := by
  refine (withSource_of_srcHolds h _).trans ?_
  rw [hw]

theorem exec_contParse_of_error {e : CmdError} (h : s.srcHolds stream) (he : walk s.params stream = .error e) :
    exec .contParse s = raise e s := by
  refine (withSource_of_srcHolds h _).trans ?_
  rw [he]

/-- A CONT_PARSE that completes without error has loaded the records whose stream the range holds. -/
theorem exec_contParse_succeeds {t : State} (h : s.srcHolds stream) (ht : exec .contParse s = .next t)
    (hok : t.errcode = .none) :
    ∃ ks, stream = containerStream ks ∧ t = { s with cont := ks }.complete .none := by
  cases hw : walk s.params stream with
  | ok ks => exact ⟨ks, (walk_ok hw).1, (succeed_eq_next.1 ((exec_contParse_of_ok h hw).symm.trans ht)).symm⟩
  | error e =>
    obtain rfl := raise_eq_next.1 ((exec_contParse_of_error h hw).symm.trans ht)
    rcases walk_error hw with rfl | rfl | rfl | ⟨_, _, rfl⟩
    · exact nomatch hok
    · exact nomatch hok
    · exact nomatch hok
    · exact nomatch hok

end

/-- Settles O30: behind the signature and the frames of `ks` the walk stands at `rest` (`walk_frames`), which is empty,
truncated, or a frame without room or with a wrong CRC. -/
theorem contParseWalksStream : Obligations.ContParseWalksStream := by
  refine ⟨decode_encode .contParse, fun s => ⟨fun stream h hsig => exec_contParse_of_error h (if_pos hsig),
    fun ks rest hks h => ?_, fun h => withSource_of_bounds h _, fun h => withSource_of_srcUnwritten h _⟩⟩
  have hwalk : walk s.params (signature ++ ks.flatMap frame ++ rest)
      = walkLoop s.params (rest.length + 1) rest ks (dataTotal ks) := walk_frames hks rest
  refine ⟨fun hnil => ?_, fun h1 h4 => ?_, fun h4 hshort => ?_, fun decl t d stored more hrest hd => ?_⟩
  · exact exec_contParse_of_ok h (hwalk.trans (hnil ▸ walkLoop_nil ..))
  · exact exec_contParse_of_error h (hwalk.trans (walkLoop_of_truncated h1 (.inl h4)))
  · exact exec_contParse_of_error h (hwalk.trans (walkLoop_of_truncated (by omega) (.inr hshort)))
  · have hlen : d.length < 2 ^ 32 := hd ▸ decl.isLt
    obtain rfl : rest = frame ⟨t, d, stored⟩ ++ more := by rw [hrest, fields_eq_frame hd]
    refine ⟨fun hfull => ?_, fun hm hu hcrc => ?_⟩
    · exact exec_contParse_of_error h (hwalk.trans (walkLoop_frame_of_no_room hlen hfull))
    · exact exec_contParse_of_error h (hwalk.trans (walkLoop_frame_of_wrong_crc hlen hcrc hm hu))

/-! ### CONT_CLEAR and CONT_APPEND (R110, R113) -/

/-- Settles O29: the command has one end, and both views are computed from no records. -/
theorem contClearEmptiesContainer : Obligations.ContClearEmptiesContainer :=
  ⟨decode_encode .contClear, fun _ => ⟨_, rfl, rfl, rfl, rfl⟩⟩

section
variable {s : State} {k : Chunk}

theorem exec_contAppend_of_room (hk : s.stg = some k) (hm : s.cont.length + 1 ≤ s.params.maxChunks.toNat)
    (hu : dataTotal s.cont + k.data.length ≤ s.params.storeCap.toNat) :
    exec .contAppend s = succeed { s with cont := s.cont ++ [k] } :=
  (withStage_of_stg hk _).trans ((if_neg (Nat.not_lt.2 hm)).trans (if_neg (Nat.not_lt.2 hu)))

theorem exec_contAppend_of_no_room (hk : s.stg = some k)
    (h : s.params.maxChunks.toNat < s.cont.length + 1
      ∨ s.params.storeCap.toNat < dataTotal s.cont + k.data.length) :
    exec .contAppend s = raise (.plain .capacity) s := by
  refine (withStage_of_stg hk _).trans ?_
  by_cases hm : s.params.maxChunks.toNat < s.cont.length + 1
  · exact if_pos hm
  · exact (if_neg hm).trans (if_pos (h.resolve_left hm))

end

/-- Settles O31: STG holds a record that the capacities admit or not, or is empty. -/
theorem contAppendCopiesStage : Obligations.ContAppendCopiesStage :=
  ⟨decode_encode .contAppend, fun _ => ⟨fun _ hk =>
    ⟨fun hm hu => exec_contAppend_of_room hk hm hu, fun h => exec_contAppend_of_no_room hk h⟩,
    fun h => withStage_of_empty h _⟩⟩

/-! ### The first record of TYPE: CONT_FIND, CONT_REMOVE and CONT_GET (R107, R108, R114 to R116) -/

section
variable {s : State} {i : Nat} {k : Chunk}

theorem State.matchesType_iff : s.matchesType k ↔ k.type = Tag.ofWord s.typeReg :=
  ⟨congrArg Tag.ofBytes, congrArg Tag.bytes⟩

theorem firstOf_of_firstMatch (h : s.firstMatch i k) : firstOf s.cont s.typeReg = some i := by
  obtain ⟨hk, hm, hlt⟩ := h
  exact firstOf_of_least hk (State.matchesType_iff.1 hm) fun j hj l hl hl' =>
    hlt j hj l hl (State.matchesType_iff.2 hl')

theorem firstOf_of_no_match (h : ∀ k ∈ s.cont, ¬ s.matchesType k) : firstOf s.cont s.typeReg = none :=
  firstOf_eq_none.2 fun k hk hk' => h k hk (State.matchesType_iff.2 hk')

theorem exec_contFind_of_firstMatch (h : s.firstMatch i k) :
    exec .contFind s = succeed { s with index := BitVec.ofNat 32 i, found := true } := by
  show execContFind s = _
  rw [execContFind, firstOf_of_firstMatch h]

theorem exec_contFind_of_no_match (h : ∀ k ∈ s.cont, ¬ s.matchesType k) :
    exec .contFind s = succeed { s with index := 0xFFFFFFFF, found := false } := by
  show execContFind s = _
  rw [execContFind, firstOf_of_no_match h]

theorem stageChunk_of_fits (u : State) (h : k.data.length ≤ s.params.stgCap.toNat) :
    stageChunk s u k = succeed (u.loadStg k k.len) := if_neg (Nat.not_lt.2 h)

theorem stageChunk_of_too_long (u : State) (h : s.params.stgCap.toNat < k.data.length) :
    stageChunk s u k = raise (.plain .capacity) s := if_pos h

/-- CONT_REMOVE stages the first record of TYPE, its place taken out of CONT (R115). -/
theorem exec_contRemove_of_firstMatch (h : s.firstMatch i k) :
    exec .contRemove s = stageChunk s
      { s with cont := s.cont.take i ++ s.cont.drop (i + 1), index := BitVec.ofNat 32 i } k := by
  have hk : s.cont[i]? = some k := h.1
  show execContRemove s = _
  rw [execContRemove, firstOf_of_firstMatch h, ← List.eraseIdx_eq_take_drop_succ]
  simp only [hk]

theorem exec_contRemove_of_fits (h : s.firstMatch i k) (hfit : k.data.length ≤ s.params.stgCap.toNat) :
    exec .contRemove s = succeed (State.loadStg
      { s with cont := s.cont.take i ++ s.cont.drop (i + 1), index := BitVec.ofNat 32 i } k k.len) :=
  (exec_contRemove_of_firstMatch h).trans (stageChunk_of_fits _ hfit)

theorem exec_contRemove_of_no_match (h : ∀ k ∈ s.cont, ¬ s.matchesType k) :
    exec .contRemove s = raise (.plain .notFound) s := by
  show execContRemove s = _
  rw [execContRemove, firstOf_of_no_match h]

theorem exec_contGet_of_index (h : s.cont[s.index.toNat]? = some k) :
    exec .contGet s = stageChunk s s k := by
  show execContGet s = _
  rw [execContGet, h]

theorem exec_contGet_of_no_index (h : s.cont.length ≤ s.index.toNat) :
    exec .contGet s = raise (.plain .indexRange) s := by
  show execContGet s = _
  rw [execContGet, List.getElem?_eq_none h]

end

/-- Settles O32: a first record of TYPE stands in CONT or none matches; the count is at most 0xFFFFFFFF, since
MAX_CHUNKS is a word. -/
theorem contFindFirstOfType : Obligations.ContFindFirstOfType :=
  ⟨decode_encode .contFind, fun s => ⟨fun _ _ h => exec_contFind_of_firstMatch h,
    fun h => exec_contFind_of_no_match h,
    fun _ ⟨hcount, _⟩ => List.getElem?_eq_none (hcount.trans (Nat.le_of_lt_succ s.params.maxChunks.isLt))⟩⟩

/-- Settles O33: the first record of TYPE fits STG or not, or none matches. -/
theorem contRemoveFirstOfType : Obligations.ContRemoveFirstOfType :=
  ⟨decode_encode .contRemove, fun _ => ⟨fun _ _ h =>
    ⟨fun hfit => exec_contRemove_of_fits h hfit,
      fun hlong => (exec_contRemove_of_firstMatch h).trans (stageChunk_of_too_long _ hlong)⟩,
    fun h => exec_contRemove_of_no_match h⟩⟩

/-- Settles O34: the record at INDEX fits STG or not, or there is none. -/
theorem contGetStagesIndexed : Obligations.ContGetStagesIndexed :=
  ⟨decode_encode .contGet, fun _ => ⟨fun _ h =>
    ⟨fun hfit => (exec_contGet_of_index h).trans (stageChunk_of_fits _ hfit),
      fun hlong => (exec_contGet_of_index h).trans (stageChunk_of_too_long _ hlong)⟩,
    fun h => exec_contGet_of_no_index h⟩⟩

/-! ### CONT_EMIT (R117) -/

theorem exec_contEmit (s : State) : exec .contEmit s = emitBytes s (containerStream s.cont) := rfl

/-- Settles O35: the stream has the length the rule states (`containerStream_length`), and fits at DST_ADDR or not. -/
theorem contEmitWritesStream : Obligations.ContEmitWritesStream := by
  refine ⟨decode_encode .contEmit, fun s => ?_⟩
  rw [exec_contEmit, ← containerStream_length]
  exact ⟨fun hfit => emitBytes_of_fits hfit, fun hfit => emitBytes_of_not_fits hfit⟩

/-! ### The round trips (R118) -/

/-- Settles O56: the bytes the second command reads are the stream of the first one's records, which are storable. -/
theorem containerRoundTrip : Obligations.ContainerRoundTrip := by
  intro s t u hinv ht hok hparams hlen hfit hcopy
  obtain ⟨hstore, -⟩ := (chunksOk_iff s).1 hinv
  obtain ⟨hres, hout⟩ := emitBytes_succeeds ht hok
  have hsrc : u.srcHolds (containerStream s.cont) := srcHolds_of_copy hout (hlen ▸ hres) hfit hcopy
  exact exec_contParse_of_ok hsrc (hparams ▸ walk_containerStream hstore)

/-- Settles O57: a stream CONT_PARSE accepts is the stream of the records it loads (`exec_contParse_succeeds`). -/
theorem parsedContainerEmitsItsStream : Obligations.ParsedContainerEmitsItsStream := by
  intro s t t' stream hsrc ht hok ht' hok'
  obtain ⟨ks, rfl, rfl⟩ := exec_contParse_succeeds hsrc ht hok
  obtain ⟨hres, hout⟩ := emitBytes_succeeds ht' hok'
  exact ⟨hres, hout⟩

/-- A record of TYPE behind records of other types is the first one of TYPE. -/
theorem firstMatch_of_last {s : State} {ks : List Chunk} {k : Chunk} (hcont : s.cont = ks ++ [k])
    (hk : s.matchesType k) (hks : ∀ l ∈ ks, ¬ s.matchesType l) : s.firstMatch ks.length k := by
  refine ⟨by simp [hcont], hk, fun j hj l hl => hks l ?_⟩
  rw [hcont, List.getElem?_append_left hj] at hl
  exact List.mem_of_getElem? hl

/-- Settles O58: the appended record is the first of its type (`firstMatch_of_last`), and removing it leaves the records
that were there, none of which matches. -/
theorem appendedRecordIsFoundAndRemoved : Obligations.AppendedRecordIsFoundAndRemoved := by
  intro s k hk htype hother hm hu hfit
  have hmatch : ∀ l, s.matchesType l ↔ l.type = k.type := fun l => by
    rw [State.matchesType_iff, htype, Tag.ofWord_toWord]
  have hself : s.matchesType k := (hmatch k).2 rfl
  have hnone : ∀ l ∈ s.cont, ¬ s.matchesType l := fun l hl => mt (hmatch l).1 (hother l hl)
  have hrest : (s.cont ++ [k]).take s.cont.length ++ (s.cont ++ [k]).drop (s.cont.length + 1) = s.cont := by
    simp
  exact ⟨_, _, _, _, exec_contAppend_of_room hk hm hu,
    exec_contFind_of_firstMatch (firstMatch_of_last rfl hself hnone), rfl, rfl,
    exec_contRemove_of_fits (firstMatch_of_last rfl hself hnone) hfit,
    rfl, rfl, hrest, exec_contFind_of_no_match fun l hl => hnone l (hrest ▸ hl), rfl, rfl⟩

end Sys2Proof.Machine
end

section
/-! PROOFS. The control commands (44_control.md): a word that selects no command (R121), NOP (R119) and SOFT_RESET
(R120). -/

namespace Sys2Proof.Machine

/-! ### An illegal command word (R121) -/

/-- A word is ILLEGAL exactly if RSVD is not zero or OP is the opcode of no command (R76). -/
theorem decode_illegal_iff_fields {w : Word} :
    (∃ why, decode w = .illegal why) ↔ rsvdField w ≠ 0 ∨ ∀ i : Instr, opField w ≠ i.opcode := by
  simp only [decode_illegal_iff, ne_eq, decode_eq_command_iff, not_and_or, forall_or_left]

/-- The sequencer's step for a word that selects no command raises ILLEGAL_COMMAND. -/
theorem step_of_illegal {s : State} (hseq : s.sequencerNext) (hill : ∃ why, decode s.latch = .illegal why) :
    step s = raise (.plain .illegalCommand) s.afterLevel := by
  obtain ⟨why, hdec⟩ := hill
  rw [step_of_sequencerNext hseq, sequencerTurn, State.afterLevel_latch, hdec]
  rfl

/-- Settles O4: such a word is ILLEGAL (`decode_illegal_iff_fields`), so the step raises ILLEGAL_COMMAND, which records
nothing and sets STATUS.ERR (`statusFields`). -/
theorem illegalWordCompletesWithoutEffect : Obligations.IllegalWordCompletesWithoutEffect :=
  fun _ hseq hfields =>
    ⟨_, step_of_illegal hseq (decode_illegal_iff_fields.2 hfields), rfl, rfl, statusFields _ 2⟩

/-! ### NOP and SOFT_RESET (R119, R120) -/

/-- Settles O19: NOP has no pending write, so its completion is all it does. -/
theorem nopCompletesWithoutEffect : Obligations.NopCompletesWithoutEffect :=
  ⟨decode_encode .nop, fun _ => rfl⟩

/-- A command that completes without error, FOUND being 0 and STG empty, leaves DONE as the one bit of STATUS (R26). -/
theorem statusWord_complete_none {s : State} (hfound : s.found = false) (hstg : s.stg = none) :
    statusWord (s.complete .none) = 0x02 := by
  simp only [statusWord, State.errFlag, State.stgValid, State.complete_busy, State.complete_done,
    State.complete_errcode, State.complete_found, State.complete_stg, hfound, hstg]
  decide

/-- Settles O20: every component of the block but the buffers and LATCH has its reset value, and the completion sets
DONE (`statusWord_complete_none`); the views of a zero TYPE and of an initial CRC_STATE are `tflags_zero` and
`BitVec.xor_self`. -/
theorem softResetKeepsBuffers : Obligations.SoftResetKeepsBuffers :=
  ⟨decode_encode .softReset, fun _ =>
    ⟨_, rfl, rfl, statusWord_complete_none rfl rfl, rfl, tflags_zero, BitVec.xor_self⟩⟩

end Sys2Proof.Machine
end

section
/-! PROOFS. The error codes (60_exceptions.md): those the block never writes (R123). -/

namespace Sys2Proof.Machine

/-! ### The unused codes (R123) -/

/-- A used code's number is none of the three never raised and none of the reserved ones. -/
theorem ErrCode.code_of_used {e : ErrCode} (h : e.used = true) :
    e.code.setWidth 32 ∉ [(0x05 : Word), 0x07, 0x08] ∧ (e.code.setWidth 32 : Word).toNat ≤ 0x0D := by
  cases e with
  | invalidEncoding | internal | invalidArgument => exact nomatch h
  | _ => decide

/-- The errors a command can report have used codes. -/
theorem used_of_mem_commandRaises {i : Instr} : ∀ {e : ErrCode}, e ∈ commandRaises i → e.used = true := by
  cases i <;> decide

/-- A command with a next state leaves a used code, whatever ERRCODE held. -/
theorem exec_errcode_used {i : Instr} {s t : State} (h : exec i s = .next t) : t.errcode.used = true := by
  rcases (h ▸ exec_ends i s).reports with hok | herr
  · rw [hok]
    rfl
  · exact used_of_mem_commandRaises herr

/-- The host's turn keeps ERRCODE: a CMD write does not clear it, and no other access reaches it (R126). -/
theorem HostEffect.errcode {s t : State} (h : HostEffect s t) : t.errcode = s.errcode := by
  cases h with
  | nothing g | cell g i b hi => rfl
  | register g r w s' hw =>
    rcases regWrite_cases hw with rfl | hs'
    · rfl
    · rw [hs']

/-- Every step keeps ERRCODE a used code: the reset and the sequencer write one, the host none. -/
theorem step_errcode_used {s t : State} (hs : s.errcode.used = true) (h : step s = .next t) :
    t.errcode.used = true := by
  cases step_ends h with
  | reset _ l => rfl
  | command _ _ ht => exact exec_errcode_used ht
  | illegal _ => rfl
  | host _ ht => exact ht.errcode ▸ hs

/-- Settles O50: the code stays a used one (`step_errcode_used`), and ERRCODE reads its number
(`ErrCode.code_of_used`). -/
theorem unusedCodesNeverAppear : Obligations.UnusedCodesNeverAppear :=
  fun _ _ hs h => ⟨step_errcode_used hs h, ErrCode.code_of_used (step_errcode_used hs h)⟩

end Sys2Proof.Machine
end

section
/-! PROOFS. Reset, hazards and timing (70_reset_and_hazards.md): the hardware reset (R136), the one access allowed while
BUSY = 1 (R139), and the end of every WAIT (R143). -/

namespace Sys2Proof.Machine

/-! ### The hardware reset (R136) -/

/-- Settles O5: a high level makes the step the hardware reset (`step_reset`). -/
theorem hardwareResetRestoresBlock : Obligations.HardwareResetRestoresBlock :=
  fun _ _ => step_reset

/-! ### The host while BUSY = 1 (R139) -/

/-- A STATUS read is answered whatever BUSY is. -/
theorem guardedAccess_readStatus (s : State) :
    guardedAccess s .readStatus = .ok (s, .word (regRead s .status)) := by
  rw [guardedAccess, if_neg (by simp)]
  exact busAccess_regRead s .status

/-- Every other access while BUSY = 1 is ProtocolBusy. -/
theorem guardedAccess_of_busy {s : State} {a : Access} (hb : s.busy = true) (hne : a ≠ .readStatus) :
    guardedAccess s a = .error .protocolBusy :=
  if_pos ⟨hb, hne⟩

/-- The turns left to the host are seen in no register. -/
theorem regRead_hostTurnTaken (s : State) (r : RegName) : regRead s.hostTurnTaken r = regRead s r := by
  cases r <;> rfl

/-- While BUSY = 1 the host's turn starts with the level of the reset input consumed and one turn fewer left. -/
theorem State.hostTurnTaken_of_busy {s : State} {d : Nat} (hb : s.busy = true) (hd : s.delay = d + 1) :
    s.hostTurnTaken = { s.afterLevel with delay := d } := by
  rw [State.hostTurnTaken, if_pos hb, hd]
  rfl

/-- The host's step for a STATUS read, with BUSY = 0 or BUSY = 1: the value variable takes STATUS. -/
theorem step_of_readStatus {s : State} (hm : s.hostMoves)
    (hop : s.host.prog[s.host.pos]? = some (.access .readStatus)) :
    step s = .next { s.hostTurnTaken with
      host := { s.host with pos := s.host.pos + 1, v := regRead s .status } } := by
  rw [step_of_hostMoves hm, hostTurn]
  simp only [State.hostTurnTaken_host, hop, guardedAccess_readStatus, regRead_hostTurnTaken]
  rfl

/-- The host's step for any other access while BUSY = 1 is ProtocolBusy. -/
theorem step_of_access_busy {s : State} {a : Access} (hm : s.hostMoves) (hb : s.busy = true)
    (hop : s.host.prog[s.host.pos]? = some (.access a)) (hne : a ≠ .readStatus) :
    step s = .fault .protocolBusy := by
  rw [step_of_hostMoves hm, hostTurn]
  simp only [State.hostTurnTaken_host, hop, guardedAccess_of_busy (s := s.hostTurnTaken) hb hne]

/-- Settles O13: a STATUS read is answered (`step_of_readStatus`) with BUSY at bit 0 (`statusFields`), every other
access is ProtocolBusy (`step_of_access_busy`). -/
theorem onlyStatusReadWhileBusy : Obligations.OnlyStatusReadWhileBusy := by
  intro s d a hlow hb hd hop
  have hm : s.hostMoves := ⟨hlow, fun _ => by omega⟩
  refine ⟨?_, step_of_access_busy hm hb hop⟩
  rintro rfl
  rw [step_of_readStatus hm hop, State.hostTurnTaken_of_busy hb hd]
  exact ⟨rfl, (statusFields s 0).trans hb⟩

/-! ### A WAIT ends (R143) -/

/-- The mask of a WAIT's branch selects BUSY (R26). -/
theorem regRead_status_and_one (s : State) : regRead s .status &&& 0x1 = 0 ↔ s.busy = false := by
  have hbit : (regRead s .status).getLsbD 0 = s.busy := statusFields s 0
  show regRead s .status &&& 1#32 = 0#32 ↔ _
  rw [BitVec.and_one_eq_setWidth_ofBool_getLsbD, hbit]
  cases s.busy <;> decide

/-- A command leaves the host and the reset input as they are, whether it fails or not. -/
theorem exec_keeps_host {i : Instr} {s t : State} (h : exec i s = .next t) :
    t.host = s.host ∧ t.resetIn = s.resetIn := by
  by_cases hok : t.errcode = .none
  · obtain ⟨-, -, -, -, hhost, hreset, -⟩ := exec_writesOnlyRow h hok
    exact ⟨hhost, hreset⟩
  · obtain ⟨e, rfl, -⟩ := exec_failed h hok
    rw [raise_frame]
    exact ⟨rfl, rfl⟩

/-- The sequencer's turn completes with the host and the reset input as they were, or meets the model fault of a
command's SRC range (R55). -/
theorem sequencerTurn_completes (s : State) :
    (∃ t, sequencerTurn s = .next t ∧ t.busy = false ∧ t.host = s.host ∧ t.resetIn = s.resetIn)
    ∨ sequencerTurn s = .fault .unwrittenSource := by
  rcases sequencerTurn_cases s with ⟨i, -, hi⟩ | ⟨-, hill⟩
  · rw [hi]
    rcases (exec_ends i s).completes with ⟨t, ht, hb, -⟩ | ⟨-, -, hfault⟩
    · exact .inl ⟨t, ht, hb, exec_keeps_host ht⟩
    · exact .inr hfault
  · exact .inl ⟨_, hill, rfl, rfl, rfl⟩

/-- A run stops at a fault, whatever its bound. -/
theorem run_succ_of_fault {M : Host.Core} {s : M.State} {f : M.Fault} (h : M.step s = .fault f) (n : Nat) :
    M.run (n + 1) s = .fault f := by
  rw [Host.Core.run, h]

/-- A run goes on from where its first step comes to. -/
theorem run_succ_of_next {M : Host.Core} {s t : M.State} (h : M.step s = .next t) (n : Nat) :
    M.run (n + 1) s = M.run n t := by
  rw [Host.Core.run, h]

/-- Within `n` steps the machine comes to BUSY = 0 with the host past the WAIT at `p`. -/
def LeavesWait (p n : Nat) (s : State) : Prop :=
  ∃ m t, m ≤ n ∧ Sys2Proof.core.run m s = .next t ∧ t.busy = false ∧ t.host.pos = p + 2

/-- The host is past the WAIT already. -/
theorem LeavesWait.now {p : Nat} {s : State} (hb : s.busy = false) (hpos : s.host.pos = p + 2) :
    LeavesWait p 0 s :=
  ⟨0, s, Nat.le_refl 0, rfl, hb, hpos⟩

/-- A step more is allowed before a run that leaves the WAIT. -/
theorem LeavesWait.step {p n : Nat} {s t : State} (hs : step s = .next t) (h : LeavesWait p n t) :
    LeavesWait p (n + 1) s := by
  obtain ⟨m, u, hm, hrun, hu⟩ := h
  exact ⟨m + 1, u, Nat.succ_le_succ hm, (run_succ_of_next (M := Sys2Proof.core) hs m).trans hrun, hu⟩

/-- The bound is an upper bound. -/
theorem LeavesWait.mono {p m n : Nat} {s : State} (h : LeavesWait p m s) (hmn : m ≤ n) : LeavesWait p n s :=
  let ⟨k, t, hk, hrun⟩ := h
  ⟨k, t, hk.trans hmn, hrun⟩

/-- A reset input with no level left is low. -/
theorem resetLow_of_none {s : State} (h : s.resetIn = []) : s.resetLow := by
  rw [State.resetLow, h]
  rfl

/-- With BUSY = 0 a host that has read BUSY = 0 goes past the WAIT's branch. -/
theorem leaves_of_branch {p : Nat} {s : State} (hlow : s.resetLow) (hb : s.busy = false)
    (hbranch : s.host.prog[p + 1]? = some (.bnz 0x1 p)) (hpos : s.host.pos = p + 1)
    (hv : s.host.v &&& 0x1 = 0) : LeavesWait p 1 s := by
  have hpast := ((hostBranchesFollowValue s 0x1 p ⟨hlow, by simp [hb]⟩).2 (hpos ▸ hbranch)).2 hv
  exact .step hpast (.now hb (congrArg (· + 1) hpos))

/-- The host is in the WAIT at `p` and not about to leave it, with no reset to come: it reads STATUS next, or it has
read BUSY = 1 and goes back. -/
structure InWait (p : Nat) (s : State) : Prop where
  noReset : s.resetIn = []
  readAt : s.host.prog[p]? = some (.access .readStatus)
  branchAt : s.host.prog[p + 1]? = some (.bnz 0x1 p)
  loops : s.host.pos = p ∨ s.host.pos = p + 1 ∧ s.host.v &&& 0x1 ≠ 0

namespace InWait

variable {p : Nat} {s : State}

theorem resetLow (h : InWait p s) : s.resetLow := resetLow_of_none h.noReset

/-- A host turn leaves no reset to come. -/
theorem noReset_hostTurnTaken (h : InWait p s) : s.hostTurnTaken.resetIn = [] := by
  rw [State.hostTurnTaken_resetIn, h.noReset, List.tail_nil]

/-- Whether a host is in the WAIT depends on the host and the reset input alone. -/
theorem of_eq {t : State} (h : InWait p s) (hhost : t.host = s.host) (hreset : t.resetIn = s.resetIn) :
    InWait p t :=
  ⟨hreset ▸ h.noReset, hhost ▸ h.readAt, hhost ▸ h.branchAt, hhost ▸ h.loops⟩

/-- The WAIT's branch goes back to the STATUS read. -/
theorem step_back (h : InWait p s) (hm : s.hostMoves) (hpos : s.host.pos = p + 1) (hv : s.host.v &&& 0x1 ≠ 0) :
    step s = .next { s.hostTurnTaken with host := { s.host with pos := p } } :=
  ((hostBranchesFollowValue s 0x1 p hm).2 (hpos ▸ h.branchAt)).1 hv

/-- A host turn while BUSY = 1 keeps the host in the WAIT and takes one of the turns left. -/
theorem step_busy {d : Nat} (h : InWait p s) (hb : s.busy = true) (hd : s.delay = d + 1) :
    ∃ t, step s = .next t ∧ InWait p t ∧ t.busy = true ∧ t.delay = d := by
  have hm : s.hostMoves := ⟨h.resetLow, fun _ => by omega⟩
  have hdelay : s.hostTurnTaken.delay = d := by simp [hb, hd]
  rcases h.loops with hpos | ⟨hpos, hv⟩
  · have hv : regRead s .status &&& 0x1 ≠ 0 := mt (regRead_status_and_one s).1 (by simp [hb])
    exact ⟨_, step_of_readStatus hm (hpos ▸ h.readAt),
      ⟨h.noReset_hostTurnTaken, h.readAt, h.branchAt, .inr ⟨by simp [hpos], hv⟩⟩, hb, hdelay⟩
  · exact ⟨_, h.step_back hm hpos hv, ⟨h.noReset_hostTurnTaken, h.readAt, h.branchAt, .inl rfl⟩, hb, hdelay⟩

/-- The sequencer's step leaves the host in the WAIT with BUSY = 0, or meets the model fault. -/
theorem step_sequencer (h : InWait p s) (hb : s.busy = true) (hd : s.delay = 0) :
    (∃ t, step s = .next t ∧ InWait p t ∧ t.busy = false) ∨ step s = .fault .unwrittenSource := by
  rw [step_of_sequencerNext ⟨h.resetLow, hb, hd⟩]
  refine (sequencerTurn_completes s.afterLevel).imp_left fun ⟨t, ht, hbusy, hhost, hreset⟩ => ?_
  have hlevels : s.afterLevel.resetIn = s.resetIn := by simp [h.noReset]
  exact ⟨t, ht, h.of_eq hhost (hreset.trans hlevels), hbusy⟩

/-- With BUSY = 0 a host about to read STATUS reads BUSY = 0 and goes past the branch. -/
theorem leaves_of_reading (h : InWait p s) (hb : s.busy = false) (hpos : s.host.pos = p) : LeavesWait p 2 s := by
  refine .step (step_of_readStatus ⟨h.resetLow, by simp [hb]⟩ (hpos ▸ h.readAt)) ?_
  refine leaves_of_branch (resetLow_of_none h.noReset_hostTurnTaken) hb h.branchAt (congrArg (· + 1) hpos) ?_
  exact (regRead_status_and_one s).2 hb

/-- With BUSY = 0 the host leaves the WAIT within three steps. -/
theorem leaves_of_idle (h : InWait p s) (hb : s.busy = false) : LeavesWait p 3 s := by
  rcases h.loops with hpos | ⟨hpos, hv⟩
  · exact (h.leaves_of_reading hb hpos).mono (by omega)
  · refine .step (h.step_back ⟨h.resetLow, by simp [hb]⟩ hpos hv) (leaves_of_reading ?_ hb rfl)
    exact ⟨h.noReset_hostTurnTaken, h.readAt, h.branchAt, .inl rfl⟩

/-- With BUSY = 1 the turns left pass, the sequencer takes its step, and the host leaves the WAIT. -/
theorem leaves_of_busy {d : Nat} (h : InWait p s) (hb : s.busy = true) (hd : s.delay = d) :
    LeavesWait p (d + 4) s ∨ Sys2Proof.core.run (d + 1) s = .fault .unwrittenSource := by
  induction d generalizing s with
  | zero =>
    rcases h.step_sequencer hb hd with ⟨t, ht, hwait, hbusy⟩ | hfault
    · exact .inl (.step ht (hwait.leaves_of_idle hbusy))
    · exact .inr (run_succ_of_fault (M := Sys2Proof.core) hfault 0)
  | succ d ih =>
    obtain ⟨t, ht, hwait, hbusy, hdelay⟩ := h.step_busy hb hd
    rw [run_succ_of_next (M := Sys2Proof.core) ht, show d + 1 + 4 = d + 4 + 1 by omega]
    exact (ih hwait hbusy hdelay).imp_left (.step ht)

end InWait

/-- Settles O59: a host at the STATUS read is in the WAIT, which it leaves by induction on the turns left
(`InWait.leaves_of_busy`). -/
theorem everyWaitEnds : Obligations.EveryWaitEnds :=
  fun _ _ hreset hb hpos hread hbranch =>
    InWait.leaves_of_busy ⟨hreset, hread, hbranch, .inl hpos⟩ hb rfl

end Sys2Proof.Machine
end
